-- ==== Sys2Proof/Word.lean ====
section
/-! DEFINITION. The value types of the CHIP-8 core (spec/00_scope.md R7, R8): every value is an unsigned number of a fixed width. -/

namespace Sys2Proof

/-- An 8-bit value: a general register, a timer, a byte of memory, an immediate kk (10_state.md R20, R25 to R27). -/
abbrev Byte := BitVec 8

/-- A 16-bit value: an instruction word, I, PC, a stack entry, OPCODE (10_state.md R22 to R24, R30). -/
abbrev Word := BitVec 16

/-- A 12-bit address or literal nnn as it stands in the word (30_encoding.md R71, R72). -/
abbrev Addr12 := BitVec 12

/-- The number of a general register, V0 to VF (10_state.md R20). -/
abbrev Reg := Fin 16

end Sys2Proof
end

