-- ==== Sys2Proof/Syntax.lean ====
section
/-! DEFINITION. The 33 instructions of spec/opcode_table.json, one constructor a row, with the operand fields of spec/30_encoding.md R71. -/

namespace Sys2Proof

/-- One instruction. x and y name general registers, kk and nnn are immediates as they stand in the word (30_encoding.md R72).
The ignored y field of 8xy6 and 8xyE is no operand (43_register_alu.md R157, R159; log 9). -/
inductive Instr where
  /-- 00E0, clear the display (41_display.md R120) -/
  | cls
  /-- 00EE, return from subroutine (42_control_flow.md R130) -/
  | ret
  /-- 1nnn, jump (R131) -/
  | jp (nnn : Addr12)
  /-- 2nnn, call subroutine (R132) -/
  | call (nnn : Addr12)
  /-- 3xkk, skip if Vx = kk (R133) -/
  | seImm (x : Reg) (kk : Byte)
  /-- 4xkk, skip if Vx ≠ kk (R134) -/
  | sneImm (x : Reg) (kk : Byte)
  /-- 5xy0, skip if Vx = Vy (R135) -/
  | seReg (x y : Reg)
  /-- 6xkk, load an immediate (43_register_alu.md R150) -/
  | ldImm (x : Reg) (kk : Byte)
  /-- 7xkk, add an immediate, no carry flag (R151) -/
  | addImm (x : Reg) (kk : Byte)
  /-- 8xy1, bitwise OR (R152) -/
  | orReg (x y : Reg)
  /-- 8xy2, bitwise AND (R153) -/
  | andReg (x y : Reg)
  /-- 8xy3, bitwise XOR (R154) -/
  | xorReg (x y : Reg)
  /-- 8xy4, add with carry into VF (R155) -/
  | addReg (x y : Reg)
  /-- 8xy5, Vx - Vy with not-borrow into VF (R156) -/
  | sub (x y : Reg)
  /-- 8xy6, shift Vx right by one (R157) -/
  | shr (x : Reg)
  /-- 8xy7, Vy - Vx into Vx with not-borrow into VF (R158) -/
  | subn (x y : Reg)
  /-- 8xyE, shift Vx left by one (R159) -/
  | shl (x : Reg)
  /-- 9xy0, skip if Vx ≠ Vy (42_control_flow.md R136) -/
  | sneReg (x y : Reg)
  /-- Annn, load I (44_index_memory.md R170) -/
  | ldI (nnn : Addr12)
  /-- Bnnn, jump to nnn + V0 (42_control_flow.md R137) -/
  | jpV0 (nnn : Addr12)
  /-- Cxkk, random byte masked by kk (43_register_alu.md R160) -/
  | rnd (x : Reg) (kk : Byte)
  /-- Dxyn, draw an n-row sprite (41_display.md R121); n is a count, 0..15 in a well-formed instruction -/
  | drw (x y : Reg) (n : Nat)
  /-- Ex9E, skip if key Vx is pressed (45_keys_timers.md R190) -/
  | skp (x : Reg)
  /-- ExA1, skip if key Vx is not pressed (R191) -/
  | sknp (x : Reg)
  /-- Fx07, Vx ← DT (R192) -/
  | ldVDt (x : Reg)
  /-- Fx0A, wait for a key by re-executing (R193) -/
  | ldVK (x : Reg)
  /-- Fx15, DT ← Vx (R194) -/
  | ldDtV (x : Reg)
  /-- Fx18, ST ← Vx (R195) -/
  | ldStV (x : Reg)
  /-- Fx1E, I ← I + Vx (44_index_memory.md R171) -/
  | addI (x : Reg)
  /-- Fx29, point I at a glyph (R172) -/
  | ldF (x : Reg)
  /-- Fx33, store the decimal digits of Vx (R173) -/
  | ldB (x : Reg)
  /-- Fx55, store V0..Vx (R174) -/
  | ldMemV (x : Reg)
  /-- Fx65, load V0..Vx (R175) -/
  | ldVMem (x : Reg)
  deriving DecidableEq, Repr

/-- The row of spec/opcode_table.json an instruction stands for, by its mnemonic. -/
def Instr.mnemonic : Instr → String
  | .cls => "CLS"
  | .ret => "RET"
  | .jp _ => "JP"
  | .call _ => "CALL"
  | .seImm _ _ => "SE_imm"
  | .sneImm _ _ => "SNE_imm"
  | .seReg _ _ => "SE_reg"
  | .ldImm _ _ => "LD_imm"
  | .addImm _ _ => "ADD_imm"
  | .orReg _ _ => "OR"
  | .andReg _ _ => "AND"
  | .xorReg _ _ => "XOR"
  | .addReg _ _ => "ADD_reg"
  | .sub _ _ => "SUB"
  | .shr _ => "SHR"
  | .subn _ _ => "SUBN"
  | .shl _ => "SHL"
  | .sneReg _ _ => "SNE_reg"
  | .ldI _ => "LD_I"
  | .jpV0 _ => "JP_V0"
  | .rnd _ _ => "RND"
  | .drw _ _ _ => "DRW"
  | .skp _ => "SKP"
  | .sknp _ => "SKNP"
  | .ldVDt _ => "LD_V_DT"
  | .ldVK _ => "LD_V_K"
  | .ldDtV _ => "LD_DT_V"
  | .ldStV _ => "LD_ST_V"
  | .addI _ => "ADD_I"
  | .ldF _ => "LD_F"
  | .ldB _ => "LD_B"
  | .ldMemV _ => "LD_MEM_V"
  | .ldVMem _ => "LD_V_MEM"

end Sys2Proof
end

