-- ==== Sys2Proof/WellFormed.lean ====
section
/-! DEFINITION. Which terms of Instr are instructions the encoding has. Register numbers, kk and nnn are bounded by their types (30_encoding.md R72: every 4-bit value is a register); the one operand that is not is the sprite height of Dxyn. -/

namespace Sys2Proof

/-- n of Dxyn is an unsigned 4-bit count, 0..15 (30_encoding.md R72). -/
def heightFits (n : Nat) : Bool := decide (n ≤ 15)

/-- An instruction whose every operand fits its field of the word. -/
def Instr.wellFormed : Instr → Bool
  | .drw _ _ n => heightFits n
  | .cls | .ret | .jp _ | .call _ | .seImm _ _ | .sneImm _ _ | .seReg _ _ | .ldImm _ _ | .addImm _ _
  | .orReg _ _ | .andReg _ _ | .xorReg _ _ | .addReg _ _ | .sub _ _ | .shr _ | .subn _ _ | .shl _
  | .sneReg _ _ | .ldI _ | .jpV0 _ | .rnd _ _ | .skp _ | .sknp _ | .ldVDt _ | .ldVK _ | .ldDtV _
  | .ldStV _ | .addI _ | .ldF _ | .ldB _ | .ldMemV _ | .ldVMem _ => true

end Sys2Proof
end

