-- ==== Sys2Proof/Decode.lean ====
section
/-! DEFINITION. Decoding (spec/30_encoding.md R70 to R76): total on every word and on every list of bytes, rejecting by name; the encoder from the same table; and the opcode table itself as mask and match pairs. -/

namespace Sys2Proof

/-- v[hi:lo] of a 16-bit word, as an unsigned number (00_scope.md R7). -/
def bits (w : Word) (hi lo : Nat) : Nat := w.toNat / 2 ^ lo % 2 ^ (hi + 1 - lo)

/-- op = opcode[15:12] (30_encoding.md R71) -/
def fieldOp (w : Word) : Nat := bits w 15 12
/-- x = opcode[11:8] -/
def fieldX (w : Word) : Reg := Fin.ofNat 16 (bits w 11 8)
/-- y = opcode[7:4] -/
def fieldY (w : Word) : Reg := Fin.ofNat 16 (bits w 7 4)
/-- n = opcode[3:0] -/
def fieldN (w : Word) : Nat := bits w 3 0
/-- kk = opcode[7:0] -/
def fieldKk (w : Word) : Byte := BitVec.ofNat 8 (bits w 7 0)
/-- nnn = opcode[11:0] -/
def fieldNnn (w : Word) : Addr12 := BitVec.ofNat 12 (bits w 11 0)

/-- Why bytes are no instruction: the rows of R75's table, and fewer than two bytes. -/
inductive DecodeReject where
  /-- 0nnn other than 00E0 and 00EE -/
  | zeroFamily
  /-- 5xyN with N ≠ 0 -/
  | fiveFamily
  /-- 8xyN with N in 0, 8, 9, A, B, C, D, F -/
  | eightFamily
  /-- 9xyN with N ≠ 0 -/
  | nineFamily
  /-- ExKK with KK neither 9E nor A1 -/
  | eFamily
  /-- FxKK with KK in no row of the table -/
  | fFamily
  /-- fewer than two bytes: no word to decode -/
  | truncated
  deriving DecidableEq, Repr

/-- What decoding a word answers. -/
inductive Decoded where
  | instr (i : Instr)
  | unrecognized (why : DecodeReject)
  deriving DecidableEq, Repr

/-- Family 0: only the exact words 00E0 and 00EE (R74). -/
def decodeZero (w : Word) : Decoded :=
  if w.toNat = 0x00E0 then .instr .cls
  else if w.toNat = 0x00EE then .instr .ret
  else .unrecognized .zeroFamily

/-- Family 5: the low nibble must be 0 (R74). -/
def decodeFive (w : Word) : Decoded :=
  if fieldN w = 0 then .instr (.seReg (fieldX w) (fieldY w)) else .unrecognized .fiveFamily

/-- Family 9: the low nibble must be 0 (R74). -/
def decodeNine (w : Word) : Decoded :=
  if fieldN w = 0 then .instr (.sneReg (fieldX w) (fieldY w)) else .unrecognized .nineFamily

/-- Family 8: the second-level key is n (R73). -/
def decodeEight (w : Word) : Decoded :=
  match fieldN w with
  | 0x1 => .instr (.orReg (fieldX w) (fieldY w))
  | 0x2 => .instr (.andReg (fieldX w) (fieldY w))
  | 0x3 => .instr (.xorReg (fieldX w) (fieldY w))
  | 0x4 => .instr (.addReg (fieldX w) (fieldY w))
  | 0x5 => .instr (.sub (fieldX w) (fieldY w))
  | 0x6 => .instr (.shr (fieldX w))
  | 0x7 => .instr (.subn (fieldX w) (fieldY w))
  | 0xE => .instr (.shl (fieldX w))
  | _ => .unrecognized .eightFamily

/-- Family E: the second-level key is kk (R73). -/
def decodeE (w : Word) : Decoded :=
  match bits w 7 0 with
  | 0x9E => .instr (.skp (fieldX w))
  | 0xA1 => .instr (.sknp (fieldX w))
  | _ => .unrecognized .eFamily

/-- Family F: the second-level key is kk (R73). -/
def decodeF (w : Word) : Decoded :=
  match bits w 7 0 with
  | 0x07 => .instr (.ldVDt (fieldX w))
  | 0x0A => .instr (.ldVK (fieldX w))
  | 0x15 => .instr (.ldDtV (fieldX w))
  | 0x18 => .instr (.ldStV (fieldX w))
  | 0x1E => .instr (.addI (fieldX w))
  | 0x29 => .instr (.ldF (fieldX w))
  | 0x33 => .instr (.ldB (fieldX w))
  | 0x55 => .instr (.ldMemV (fieldX w))
  | 0x65 => .instr (.ldVMem (fieldX w))
  | _ => .unrecognized .fFamily

/-- The two-level dispatch of R73 with the strict matching of R74: every fixed nibble is checked.
The last arm is op = 0xF, the only value left: op is four bits. -/
def decodeWord (w : Word) : Decoded :=
  match fieldOp w with
  | 0x0 => decodeZero w
  | 0x1 => .instr (.jp (fieldNnn w))
  | 0x2 => .instr (.call (fieldNnn w))
  | 0x3 => .instr (.seImm (fieldX w) (fieldKk w))
  | 0x4 => .instr (.sneImm (fieldX w) (fieldKk w))
  | 0x5 => decodeFive w
  | 0x6 => .instr (.ldImm (fieldX w) (fieldKk w))
  | 0x7 => .instr (.addImm (fieldX w) (fieldKk w))
  | 0x8 => decodeEight w
  | 0x9 => decodeNine w
  | 0xA => .instr (.ldI (fieldNnn w))
  | 0xB => .instr (.jpV0 (fieldNnn w))
  | 0xC => .instr (.rnd (fieldX w) (fieldKk w))
  | 0xD => .instr (.drw (fieldX w) (fieldY w) (fieldN w))
  | 0xE => decodeE w
  | _ => decodeF w

/-- The word two bytes of memory form: the first byte is bits 15..8 (20_memory.md R55). -/
def wordOfBytes (hi lo : Byte) : Word := hi ++ lo

/-- The byte of a word that is stored first, bits 15..8 (20_memory.md R55). -/
def highByte (w : Word) : Byte := BitVec.ofNat 8 (bits w 15 8)

/-- The byte of a word that is stored second, bits 7..0 (20_memory.md R55). -/
def lowByte (w : Word) : Byte := BitVec.ofNat 8 (bits w 7 0)

/-- Decode the instruction at the head of a list of bytes, and the bytes after it (R70: always two bytes). -/
def decodeBytes : List Byte → Decoded × List Byte
  | hi :: lo :: rest => (decodeWord (wordOfBytes hi lo), rest)
  | short => (.unrecognized .truncated, short)

/-- The decoder's answer on a word numbered as spec/opcode_table.json numbers it, laid out as memory stores it. -/
def decodeTableWord (nbits w : Nat) : Option Instr :=
  let word : Word := BitVec.ofNat 16 (w % 2 ^ nbits)
  match decodeBytes [highByte word, lowByte word] with
  | (.instr i, _) => some i
  | (.unrecognized _, _) => none

/-- A word from its four nibbles (R71). -/
def packNibbles (op x y n : Nat) : Word := BitVec.ofNat 16 (op * 4096 + x * 256 + y * 16 + n)

/-- A word from op, x and kk (R71). -/
def packKk (op : Nat) (x : Reg) (kk : Nat) : Word := BitVec.ofNat 16 (op * 4096 + x.val * 256 + kk)

/-- A word from op and nnn (R71). -/
def packNnn (op : Nat) (nnn : Addr12) : Word := BitVec.ofNat 16 (op * 4096 + nnn.toNat)

/-- The word of an instruction, from the encodings of spec/opcode_table.json; y of SHR and SHL is written 0 (R77). -/
def encode : Instr → Word
  | .cls => 0x00E0
  | .ret => 0x00EE
  | .jp nnn => packNnn 0x1 nnn
  | .call nnn => packNnn 0x2 nnn
  | .seImm x kk => packKk 0x3 x kk.toNat
  | .sneImm x kk => packKk 0x4 x kk.toNat
  | .seReg x y => packNibbles 0x5 x y 0x0
  | .ldImm x kk => packKk 0x6 x kk.toNat
  | .addImm x kk => packKk 0x7 x kk.toNat
  | .orReg x y => packNibbles 0x8 x y 0x1
  | .andReg x y => packNibbles 0x8 x y 0x2
  | .xorReg x y => packNibbles 0x8 x y 0x3
  | .addReg x y => packNibbles 0x8 x y 0x4
  | .sub x y => packNibbles 0x8 x y 0x5
  | .shr x => packNibbles 0x8 x 0 0x6
  | .subn x y => packNibbles 0x8 x y 0x7
  | .shl x => packNibbles 0x8 x 0 0xE
  | .sneReg x y => packNibbles 0x9 x y 0x0
  | .ldI nnn => packNnn 0xA nnn
  | .jpV0 nnn => packNnn 0xB nnn
  | .rnd x kk => packKk 0xC x kk.toNat
  | .drw x y n => packNibbles 0xD x y n
  | .skp x => packKk 0xE x 0x9E
  | .sknp x => packKk 0xE x 0xA1
  | .ldVDt x => packKk 0xF x 0x07
  | .ldVK x => packKk 0xF x 0x0A
  | .ldDtV x => packKk 0xF x 0x15
  | .ldStV x => packKk 0xF x 0x18
  | .addI x => packKk 0xF x 0x1E
  | .ldF x => packKk 0xF x 0x29
  | .ldB x => packKk 0xF x 0x33
  | .ldMemV x => packKk 0xF x 0x55
  | .ldVMem x => packKk 0xF x 0x65

/-- One row of spec/opcode_table.json: a word is of the row when word & mask = pattern. -/
structure OpcodeRow where
  mnemonic : String
  mask : Word
  pattern : Word
  deriving DecidableEq, Repr

/-- Whether a word carries the fixed bits of a row (R74). -/
def OpcodeRow.fits (r : OpcodeRow) (w : Word) : Bool := w &&& r.mask == r.pattern

/-- The rows with a fixed word or a fixed first nibble only. -/
def opcodeTableNibble : List OpcodeRow :=
  [ ⟨"CLS", 0xFFFF, 0x00E0⟩, ⟨"RET", 0xFFFF, 0x00EE⟩, ⟨"JP", 0xF000, 0x1000⟩, ⟨"CALL", 0xF000, 0x2000⟩,
    ⟨"SE_imm", 0xF000, 0x3000⟩, ⟨"SNE_imm", 0xF000, 0x4000⟩, ⟨"LD_imm", 0xF000, 0x6000⟩,
    ⟨"ADD_imm", 0xF000, 0x7000⟩, ⟨"LD_I", 0xF000, 0xA000⟩, ⟨"JP_V0", 0xF000, 0xB000⟩,
    ⟨"RND", 0xF000, 0xC000⟩, ⟨"DRW", 0xF000, 0xD000⟩ ]

/-- The rows with a fixed first and last nibble. -/
def opcodeTableReg : List OpcodeRow :=
  [ ⟨"SE_reg", 0xF00F, 0x5000⟩, ⟨"OR", 0xF00F, 0x8001⟩, ⟨"AND", 0xF00F, 0x8002⟩, ⟨"XOR", 0xF00F, 0x8003⟩,
    ⟨"ADD_reg", 0xF00F, 0x8004⟩, ⟨"SUB", 0xF00F, 0x8005⟩, ⟨"SHR", 0xF00F, 0x8006⟩,
    ⟨"SUBN", 0xF00F, 0x8007⟩, ⟨"SHL", 0xF00F, 0x800E⟩, ⟨"SNE_reg", 0xF00F, 0x9000⟩ ]

/-- The rows with a fixed first nibble and last byte. -/
def opcodeTableByte : List OpcodeRow :=
  [ ⟨"SKP", 0xF0FF, 0xE09E⟩, ⟨"SKNP", 0xF0FF, 0xE0A1⟩, ⟨"LD_V_DT", 0xF0FF, 0xF007⟩, ⟨"LD_V_K", 0xF0FF, 0xF00A⟩,
    ⟨"LD_DT_V", 0xF0FF, 0xF015⟩, ⟨"LD_ST_V", 0xF0FF, 0xF018⟩, ⟨"ADD_I", 0xF0FF, 0xF01E⟩,
    ⟨"LD_F", 0xF0FF, 0xF029⟩, ⟨"LD_B", 0xF0FF, 0xF033⟩, ⟨"LD_MEM_V", 0xF0FF, 0xF055⟩,
    ⟨"LD_V_MEM", 0xF0FF, 0xF065⟩ ]

/-- The 33 rows of spec/opcode_table.json. -/
def opcodeTable : List OpcodeRow := opcodeTableNibble ++ opcodeTableReg ++ opcodeTableByte

end Sys2Proof
end

