-- ==== Sys2Proof/Machine/Flags.lean ====
section
/-! DEFINITION. The flag and result computations of the ALU family (spec/43_register_alu.md R161): unsigned, modulo 256. VF is the only flag (10_state.md R21). -/

namespace Sys2Proof.Machine

/-- A flag as the byte VF receives. -/
def flagByte (b : Bool) : Byte := if b then 1 else 0

/-- Carry out of an 8-bit addition: a + b ≥ 256 (R161). -/
def carry (a b : Byte) : Bool := decide (256 ≤ a.toNat + b.toNat)

/-- No borrow in a - b: a ≥ b; equal operands do not borrow (R161). -/
def notBorrow (a b : Byte) : Bool := decide (b.toNat ≤ a.toNat)

/-- Bit 0, the bit a right shift drops (R157). -/
def shiftedOutRight (a : Byte) : Bool := a.getLsbD 0

/-- Bit 7, the bit a left shift drops (R159). -/
def shiftedOutLeft (a : Byte) : Bool := a.getLsbD 7

end Sys2Proof.Machine
end

