-- ==== Sys2Proof/Config.lean ====
section
/-! DEFINITION. What an implementation of the core fixes (spec/00_scope.md R6: DECODE_ERROR_POLICY, FONT) and the one free value the spec leaves open, the random byte of each step (40_step_cycle.md R110). -/

namespace Sys2Proof

/-- DECODE_ERROR_POLICY (00_scope.md R6, 40_step_cycle.md R106): what an unrecognized word does to STATUS. -/
inductive DecodeErrorPolicy where
  /-- CONTINUE: STATUS stays RUNNING. -/
  | continues
  /-- HALT: STATUS becomes HALTED(DECODE_ERROR). -/
  | halts
  deriving DecidableEq, Repr

/-- FONT: the 80 bytes `initialize` copies to addresses 0..79 (00_scope.md R6, 70_reset_and_hazards.md R241). -/
abbrev Font := Vector Byte 80

/-- The parameters a model of the core takes as arguments (00_scope.md R6).
They ride in State and nothing writes them: DESIGN CHOICE, log 4, safe. -/
structure Config where
  decodeErrorPolicy : DecodeErrorPolicy
  font : Font
  deriving DecidableEq, Repr

/-- FREE VALUE (log 3, safe): the rnd byte the host supplies with its k-th drawing step.
40_step_cycle.md R110: any of the 256 values, with no relation between the bytes of different steps. -/
opaque Config.rndByte : Nat → Byte

end Sys2Proof
end

