-- ==== Sys2Proof/Machine/Font.lean ====
section
/-! DEFINITION. The default values of the core's parameters (spec/00_scope.md R6): CONTINUE, and the conventional CHIP-8 font of 70_reset_and_hazards.md R241. -/

namespace Sys2Proof.Machine

/-- Glyphs 0 to 3, five rows each (70_reset_and_hazards.md R241). -/
def fontGlyphs0 : Vector Byte 20 :=
  #v[0xF0, 0x90, 0x90, 0x90, 0xF0, 0x20, 0x60, 0x20, 0x20, 0x70,
     0xF0, 0x10, 0xF0, 0x80, 0xF0, 0xF0, 0x10, 0xF0, 0x10, 0xF0]

/-- Glyphs 4 to 7. -/
def fontGlyphs4 : Vector Byte 20 :=
  #v[0x90, 0x90, 0xF0, 0x10, 0x10, 0xF0, 0x80, 0xF0, 0x10, 0xF0,
     0xF0, 0x80, 0xF0, 0x90, 0xF0, 0xF0, 0x10, 0x20, 0x40, 0x40]

/-- Glyphs 8 to B. -/
def fontGlyphs8 : Vector Byte 20 :=
  #v[0xF0, 0x90, 0xF0, 0x90, 0xF0, 0xF0, 0x90, 0xF0, 0x10, 0xF0,
     0xF0, 0x90, 0xF0, 0x90, 0x90, 0xE0, 0x90, 0xE0, 0x90, 0xE0]

/-- Glyphs C to F. -/
def fontGlyphsC : Vector Byte 20 :=
  #v[0xF0, 0x80, 0x80, 0x80, 0xF0, 0xE0, 0x90, 0x90, 0x90, 0xE0,
     0xF0, 0x80, 0xF0, 0x80, 0xF0, 0xF0, 0x80, 0xF0, 0x80, 0x80]

/-- The default FONT. The spec takes these bytes from general knowledge, not from its source (R241, D17): PRESUMED, log 4, unsafe. -/
def conventionalFont : Font := fontGlyphs0 ++ fontGlyphs4 ++ fontGlyphs8 ++ fontGlyphsC

/-- The default parameters: CONTINUE (40_step_cycle.md R106) and the conventional font. -/
def defaultConfig : Config := { decodeErrorPolicy := .continues, font := conventionalFont }

end Sys2Proof.Machine
end

