-- ==== Sys2Proof/Machine/State.lean ====
section
/-! DEFINITION. The state of the core: every piece of state of spec/10_state.md R20 to R33, the parameters of 00_scope.md R6, the model's own ports, and the state after `initialize` (70_reset_and_hazards.md R240). -/

namespace Sys2Proof.Machine

/-- The kinds STATUS can be halted with (10_state.md R31). -/
inductive HaltKind where
  | stackOverflow
  | stackUnderflow
  | outOfBounds
  /-- only when DECODE_ERROR_POLICY = HALT -/
  | decodeError
  deriving DecidableEq, Repr

/-- STATUS, the run-status latch (10_state.md R31). -/
inductive Status where
  | running
  | halted (kind : HaltKind)
  deriving DecidableEq, Repr

/-- Where an OUT_OF_BOUNDS comes from (60_exceptions.md R200, R204, R205). -/
inductive AccessSource where
  | fetch
  | data
  | key
  deriving DecidableEq, Repr

/-- The errors of a step, each with its info (60_exceptions.md R200 to R205). -/
inductive StepError where
  /-- DECODE_ERROR(word), R201 -/
  | decodeError (word : Word)
  /-- STACK_OVERFLOW, R202 -/
  | stackOverflow
  /-- STACK_UNDERFLOW, R203 -/
  | stackUnderflow
  /-- OUT_OF_BOUNDS(addr, source): the offending address, an unbounded natural, or the key index; R204, R205 -/
  | outOfBounds (addr : Nat) (source : AccessSource)
  deriving DecidableEq, Repr

/-- What a transaction returns (00_scope.md R5, 60_exceptions.md R200). -/
inductive Reply where
  /-- `initialize` returns nothing (00_scope.md R5) -/
  | none
  /-- code 0, OK -/
  | ok
  /-- codes 1 to 4, the error of the step that raised it -/
  | error (e : StepError)
  /-- the error k that a step of a HALTED(k) machine returns (40_step_cycle.md R100); STATUS holds the kind alone, so there is no info to return: DEDUCED, log 5 -/
  | stillHalted (kind : HaltKind)
  /-- code 5, LOAD_ERROR(L) (60_exceptions.md R206) -/
  | loadError (length : Nat)
  /-- code 6, INVALID_ARGUMENT(index) (60_exceptions.md R215) -/
  | invalidArgument (index : Nat)
  /-- the beep bit of `tick_timers` (60_exceptions.md R212) -/
  | beep (b : Bool)
  deriving DecidableEq, Repr

/-- Memory: the bytes that differ from their reset contents, by rising address (20_memory.md R50; the form is Memory.wf of Machine/Ops.lean). -/
abbrev Memory := List Host.Cell

/-- The framebuffer: row y is a word of 64 pixels, pixel x its bit x (10_state.md R28, 41_display.md R122). -/
abbrev Display := Vector (BitVec 64) 32

/-- The state of the core. -/
structure State where
  /-- the parameters of 00_scope.md R6, fixed for the machine (log 4) -/
  config : Config
  /-- V0..VF (10_state.md R20, R21) -/
  v : Vector Byte 16
  /-- I (R22) -/
  i : Word
  /-- PC (R23) -/
  pc : Word
  /-- Stack[0..15] (R24) -/
  stack : Vector Word 16
  /-- SP, the number of valid entries, 0..16 (R24) -/
  sp : Fin 17
  /-- DT (R25) -/
  dt : Byte
  /-- ST (R26) -/
  st : Byte
  /-- Mem (R27) -/
  mem : Memory
  /-- Pix (R28) -/
  pix : Display
  /-- Key[0..15], true is pressed (R29) -/
  keys : Vector Bool 16
  /-- OPCODE (R30) -/
  opcode : Word
  /-- STATUS (R31) -/
  status : Status
  /-- the model's own: `load` has returned OK since `initialize` (70_reset_and_hazards.md R243, R244; log 6) -/
  loaded : Bool
  /-- the model's own port: what the last transaction returned (00_scope.md R5; log 2) -/
  reply : Reply
  /-- the model's own port: the rnd byte of the step under way (40_step_cycle.md R110; log 3) -/
  rnd : Byte
  /-- the model's own counter: how many rnd bytes steps have taken, the index of the next free value (log 3) -/
  draws : Nat
  deriving DecidableEq, Repr

/-- Why the machine stops with a fault: never. The core has no such outcome, every error the spec describes is a result of the step and a next state (60_exceptions.md R208; log 1), so this type has no constructor. -/
inductive Fault where
  deriving DecidableEq, Repr

/-- Why a transaction has no meaning. -/
inductive Refusal where
  /-- Raised by exec for an instruction without a meaning yet; no arm raises it now. Safe: the run stops. -/
  | notModelled (mnemonic : String)
  /-- Raised by `step`, `set_key` and `tick_timers` before a successful `load`: "a model refuses such a sequence" (70_reset_and_hazards.md R244, D14; log 6). Safe: the run stops. -/
  | beforeLoad
  /-- Raised by `load` after a successful `load` (70_reset_and_hazards.md R244, D14; log 6). Safe: the run stops. -/
  | secondLoad
  deriving DecidableEq, Repr

/-- The reset state under given parameters (70_reset_and_hazards.md R240, 10_state.md R33). Memory lists nothing: an unlisted byte reads as FONT at 0..79 and as 0 above (R27). The reset values of the model's own rnd and draws are DESIGN CHOICE, log 3: no step reads them before it has written rnd. -/
def State.resetWith (c : Config) : State where
  config := c
  v := Vector.replicate 16 0
  i := 0
  pc := 0x200
  stack := Vector.replicate 16 0
  sp := 0
  dt := 0
  st := 0
  mem := []
  pix := Vector.replicate 32 0
  keys := Vector.replicate 16 false
  opcode := 0
  status := .running
  loaded := false
  reply := .none
  rnd := 0
  draws := 0

/-- The machine right after `initialize`, with the default parameters. -/
def State.reset : State := State.resetWith defaultConfig

end Sys2Proof.Machine
end

