-- ==== Sys2Proof/Machine/Ops.lean ====
section
/-! DEFINITION. The shared operations over registers, memory, stack and display, the end of an instruction, the taking of an error (spec/40_step_cycle.md R106, R107) and the reset that alone clears it (70_reset_and_hazards.md R240). -/

namespace Sys2Proof.Machine

/-- What an instruction, a step or a transaction answers. -/
abbrev Result := Host.Outcome State Fault Refusal

/-! ### General registers -/

/-- V[r] (10_state.md R20) -/
def State.readV (s : State) (r : Reg) : Byte := s.v[r.val]

/-- V[r] ← b -/
def State.writeV (s : State) (r : Reg) (b : Byte) : State := { s with v := s.v.set r.val b }

/-- VF, register 15 (10_state.md R21) -/
abbrev flagReg : Reg := 15

/-- VF ← 1 or 0 -/
def State.writeFlag (s : State) (b : Bool) : State := s.writeV flagReg (flagByte b)

/-- The result write to Vx first, the VF flag write last (43_register_alu.md R162, the spec's D5). -/
def State.writeResultThenFlag (s : State) (x : Reg) (result : Byte) (flag : Bool) : State :=
  (s.writeV x result).writeFlag flag

/-! ### Memory -/

/-- What address a reads as while nothing has written it: FONT at 0..79, 0 above (10_state.md R27). -/
def resetByte (font : Font) (a : Nat) : Byte := if h : a < 80 then font[a] else 0

/-- The byte at address a. -/
def Memory.get (font : Font) : Memory → Nat → Byte
  | [], a => resetByte font a
  | (k, b) :: m, a => if k = a then b else Memory.get font m a

/-- The entries without those at address a. -/
def Memory.erase (m : Memory) (a : Nat) : Memory := m.filter (fun cell => cell.1 ≠ a)

/-- The entries with (a, b) among them, before the first of a higher address. -/
def Memory.insert : Memory → Nat → Byte → Memory
  | [], a, b => [(a, b)]
  | (k, c) :: m, a, b => if a < k then (a, b) :: (k, c) :: m else (k, c) :: Memory.insert m a b

/-- Memory with byte b at address a: writing the reset contents leaves no entry. -/
def Memory.put (font : Font) (m : Memory) (a : Nat) (b : Byte) : Memory :=
  if b = resetByte font a then Memory.erase m a else Memory.insert (Memory.erase m a) a b

/-- Canonical form of the entries at lo and above: addresses strictly rising and below 4096, no entry equal to its reset contents. -/
def Memory.wfFrom (font : Font) : Nat → Memory → Bool
  | _, [] => true
  | lo, (a, b) :: m =>
    decide (lo ≤ a) && decide (a < 4096) && decide (b ≠ resetByte font a) && Memory.wfFrom font (a + 1) m

/-- Canonical form of a memory: equal memories are equal lists. -/
def Memory.wf (font : Font) (m : Memory) : Bool := Memory.wfFrom font 0 m

/-- Consecutive bytes written from address a upwards. -/
def Memory.putList (font : Font) : Memory → Nat → List Byte → Memory
  | m, _, [] => m
  | m, a, b :: bs => Memory.putList font (Memory.put font m a b) (a + 1) bs

/-- Mem[a] of a state, for a ≤ 4095 (20_memory.md R52). -/
def State.readByte (s : State) (a : Nat) : Byte := Memory.get s.config.font s.mem a

/-- Mem[a] ← b, for a ≤ 4095 (20_memory.md R53). -/
def State.writeByte (s : State) (a : Nat) (b : Byte) : State :=
  { s with mem := Memory.put s.config.font s.mem a b }

/-- MemRead(a, 1): the byte, or the offending address (20_memory.md R52). -/
def memRead (s : State) (a : Nat) : Except Nat Byte :=
  if a ≤ 4095 then .ok (s.readByte a) else .error a

/-- MemWrite(a, 1, b): the new state, or the offending address (20_memory.md R53). -/
def memWrite (s : State) (a : Nat) (b : Byte) : Except Nat State :=
  if a ≤ 4095 then .ok (s.writeByte a b) else .error a

/-- n bytes from address a upwards, one MemRead after the other: the first offending address ends it (60_exceptions.md R207). -/
def readBlock (s : State) : Nat → Nat → Except Nat (List Byte)
  | _, 0 => .ok []
  | a, n + 1 =>
    match memRead s a with
    | .error e => .error e
    | .ok b =>
      match readBlock s (a + 1) n with
      | .error e => .error e
      | .ok bs => .ok (b :: bs)

/-- The bytes written from address a upwards, one MemWrite after the other: the first offending address ends it (60_exceptions.md R207). -/
def writeBlock : State → Nat → List Byte → Except Nat State
  | s, _, [] => .ok s
  | s, a, b :: bs =>
    match memWrite s a b with
    | .error e => .error e
    | .ok s' => writeBlock s' (a + 1) bs

/-! ### Call stack -/

/-- Push: Stack[SP] ← w, SP ← SP + 1; none when SP = 16 (10_state.md R24). -/
def push (s : State) (w : Word) : Option State :=
  if h : s.sp.val < 16 then
    some { s with stack := s.stack.set s.sp.val w, sp := ⟨s.sp.val + 1, by omega⟩ }
  else none

/-- Pop: SP ← SP - 1, the value is Stack[SP], which keeps it; none when SP = 0 (10_state.md R24). -/
def pop (s : State) : Option (Word × State) :=
  if h : 0 < s.sp.val then
    some (s.stack[s.sp.val - 1]'(by omega), { s with sp := ⟨s.sp.val - 1, by omega⟩ })
  else none

/-! ### Display -/

/-- Pix[x, y] (10_state.md R28) -/
def Display.pixel (d : Display) (x : Fin 64) (y : Fin 32) : Bool := d[y.val].getLsbD x.val

/-- Pix[x, y] ← Pix[x, y] XOR 1 -/
def Display.toggle (d : Display) (x : Fin 64) (y : Fin 32) : Display :=
  d.set y.val (d[y.val] ^^^ BitVec.twoPow 64 x.val)

/-- All pixels false. -/
def Display.clear : Display := Vector.replicate 32 0

/-! ### The program counter -/

/-- pc ← target -/
def State.jump (s : State) (target : Word) : State := { s with pc := target }

/-- skip() when the condition holds: pc ← PC + 2 mod 2^16 (42_control_flow.md R138). -/
def State.skipIf (s : State) (c : Bool) : State := if c then s.jump (s.pc + 2) else s

/-- The address of the instruction under way, given the advanced PC: PC - 2 mod 2^16 (40_step_cycle.md R103, R107). -/
def State.instrAddr (s : State) : Word := s.pc - 2

/-! ### The end of an instruction, and errors -/

/-- EXECUTE completed without error: the step returns OK (40_step_cycle.md R108). -/
def complete (s : State) : Result := .next { s with reply := .ok }

/-- The kind STATUS latches for an error (10_state.md R31). -/
def StepError.kind : StepError → HaltKind
  | .decodeError _ => .decodeError
  | .stackOverflow => .stackOverflow
  | .stackUnderflow => .stackUnderflow
  | .outOfBounds _ _ => .outOfBounds

/-- STATUS ← HALTED(kind), and the error is the step's result (40_step_cycle.md R107, 60_exceptions.md R208). -/
def haltWith (e : StepError) (s : State) : State := { s with status := .halted e.kind, reply := .error e }

/-- TAKING A FATAL ERROR in EXECUTE (40_step_cycle.md R107), given the state EXECUTE began in, before any of its writes: PC back to the instruction's address, everything else as it was, OPCODE kept, STATUS halted. There is no vector and no saved register (60_exceptions.md R208). -/
def raise (e : StepError) (s : State) : Result := .next (haltWith e { s with pc := s.instrAddr })

/-- The decode-error path (40_step_cycle.md R106), given the state after fetch and advance: only STATUS may change, by the policy. -/
def takeDecodeError (w : Word) (s : State) : Result :=
  match s.config.decodeErrorPolicy with
  | .continues => .next { s with reply := .error (.decodeError w) }
  | .halts => .next (haltWith (.decodeError w) s)

/-- `initialize`, the only way out of HALTED (10_state.md R31, 70_reset_and_hazards.md R240). The parameters stay, and the rnd bytes go on being fresh (log 11). -/
def resetMachine (s : State) : State := { State.resetWith s.config with draws := s.draws }

/-- The result codes of 60_exceptions.md R200 (the spec's D22); `initialize` and `tick_timers` return none of them. -/
def HaltKind.code : HaltKind → Nat
  | .decodeError => 1
  | .stackOverflow => 2
  | .stackUnderflow => 3
  | .outOfBounds => 4

/-- The code of a reply (60_exceptions.md R200). -/
def Reply.code : Reply → Option Nat
  | .none => Option.none
  | .ok => some 0
  | .error e => some e.kind.code
  | .stillHalted k => some k.code
  | .loadError _ => some 5
  | .invalidArgument _ => some 6
  | .beep _ => Option.none

/-! ### Fetch -/

/-- The word in memory at PC, big-endian (20_memory.md R55). -/
def wordAtPc (s : State) : Word := wordOfBytes (s.readByte s.pc.toNat) (s.readByte (s.pc.toNat + 1))

/-- FETCH (40_step_cycle.md R101): the word at PC and PC + 1, or the offending address. -/
def fetch (s : State) : Except Nat Word :=
  if 4095 < s.pc.toNat + 1 then
    .error (if 4095 < s.pc.toNat then s.pc.toNat else s.pc.toNat + 1)
  else .ok (wordAtPc s)

/-- OPCODE ← word (R102), PC ← PC + 2 mod 2^16 (R103), and the step's rnd byte is latched (R110). -/
def advance (w : Word) (rnd : Byte) (s : State) : State :=
  { s with opcode := w, pc := s.pc + 2, rnd := rnd, draws := s.draws + 1 }

end Sys2Proof.Machine
end

