-- ==== Sys2Proof/Machine/Operands.lean ====
section
/-! DEFINITION. The operand forms: 12-bit literals (spec/30_encoding.md R72), I plus an offset (44_index_memory.md), the blocks of registers and digits, the cells of a sprite (41_display.md R121), keys (45_keys_timers.md). -/

namespace Sys2Proof.Machine

/-- zext_16(nnn) (30_encoding.md R72) -/
def zext16 (nnn : Addr12) : Word := nnn.setWidth 16

/-- The target of Bnnn: nnn + V0, at most 0x10FE, not reduced (42_control_flow.md R137, the spec's D12). -/
def offsetTarget (nnn : Addr12) (v0 : Byte) : Word := BitVec.ofNat 16 (nnn.toNat + v0.toNat)

/-- The effective address I + k, an unbounded natural (20_memory.md R52, the spec's D10). -/
def State.indexAddr (s : State) (k : Nat) : Nat := s.i.toNat + k

/-- I + Vx mod 2^16 (44_index_memory.md R171) -/
def indexSum (i : Word) (v : Byte) : Word := BitVec.ofNat 16 (i.toNat + v.toNat)

/-- The address of glyph v: v × 5, the whole byte (44_index_memory.md R172, C1). -/
def glyphAddr (v : Byte) : Word := BitVec.ofNat 16 (v.toNat * 5)

/-- Hundreds, tens, ones (44_index_memory.md R173). -/
def bcdDigits (v : Byte) : List Byte :=
  [BitVec.ofNat 8 (v.toNat / 100), BitVec.ofNat 8 (v.toNat / 10 % 10), BitVec.ofNat 8 (v.toNat % 10)]

/-- V0..Vx, in order (44_index_memory.md R174). -/
def regsUpTo (s : State) (x : Reg) : List Byte := (s.v.toList).take (x.val + 1)

/-- V[r], V[r+1], … ← the bytes, in order (44_index_memory.md R175). -/
def loadRegs : Vector Byte 16 → Nat → List Byte → Vector Byte 16
  | v, _, [] => v
  | v, r, b :: bs => loadRegs (v.setIfInBounds r b) (r + 1) bs

/-- The lowest-indexed pressed key (45_keys_timers.md R193). -/
def lowestPressed (keys : Vector Bool 16) : Option (Fin 16) :=
  (List.finRange 16).find? (fun k => keys[k.val])

/-- A place on the display: column and row. -/
abbrev Cell := Fin 64 × Fin 32

/-- The cell that column c of row r of a sprite at (cx, cy) falls on: both wrap (41_display.md R121). -/
def spriteCell (cx cy r c : Nat) : Cell := (Fin.ofNat 64 (cx + c), Fin.ofNat 32 (cy + r))

/-- The cells of the set bits of one sprite row, leftmost column first; bit 7 is column 0 (41_display.md R121). -/
def rowCells (cx cy r : Nat) (row : Byte) : List Cell :=
  ((List.range 8).filter (fun c => row.getLsbD (7 - c))).map (fun c => spriteCell cx cy r c)

/-- The cells of the set bits of the rows r, r + 1, … of a sprite, in drawing order (41_display.md R121). -/
def spriteCells (cx cy : Nat) : Nat → List Byte → List Cell
  | _, [] => []
  | r, row :: rows => rowCells cx cy r row ++ spriteCells cx cy (r + 1) rows

/-- Toggle the cells one after the other; the flag becomes true when one was lit (41_display.md R121). -/
def drawCells : List Cell → Display → Bool → Display × Bool
  | [], d, collision => (d, collision)
  | (x, y) :: cells, d, collision => drawCells cells (d.toggle x y) (collision || d.pixel x y)

end Sys2Proof.Machine
end

