-- ==== Sys2Proof/Machine/Control.lean ====
section
/-! DEFINITION. Control transfer (spec/42_control_flow.md): the state given is the one after fetch and advance, so PC is the instruction's address plus 2 (00_scope.md R10). -/

namespace Sys2Proof.Machine

/-- 00EE (R130) -/
def execRet (s : State) : Result :=
  match pop s with
  | none => raise .stackUnderflow s
  | some (target, s') => complete (s'.jump target)

/-- 1nnn (R131) -/
def execJp (nnn : Addr12) (s : State) : Result := complete (s.jump (zext16 nnn))

/-- 2nnn (R132): the advanced PC is saved. -/
def execCall (nnn : Addr12) (s : State) : Result :=
  match push s s.pc with
  | none => raise .stackOverflow s
  | some s' => complete (s'.jump (zext16 nnn))

/-- 3xkk (R133) -/
def execSeImm (x : Reg) (kk : Byte) (s : State) : Result := complete (s.skipIf (s.readV x == kk))

/-- 4xkk (R134) -/
def execSneImm (x : Reg) (kk : Byte) (s : State) : Result := complete (s.skipIf (s.readV x != kk))

/-- 5xy0 (R135) -/
def execSeReg (x y : Reg) (s : State) : Result := complete (s.skipIf (s.readV x == s.readV y))

/-- 9xy0 (R136) -/
def execSneReg (x y : Reg) (s : State) : Result := complete (s.skipIf (s.readV x != s.readV y))

/-- Bnnn (R137): the offset is always V0. -/
def execJpV0 (nnn : Addr12) (s : State) : Result := complete (s.jump (offsetTarget nnn (s.readV 0)))

end Sys2Proof.Machine
end

