-- ==== Sys2Proof/Machine/DisplayInstr.lean ====
section
/-! DEFINITION. The display instructions 00E0 and Dxyn (spec/41_display.md). -/

namespace Sys2Proof.Machine

/-- 00E0 (R120) -/
def execCls (s : State) : Result := complete { s with pix := Display.clear }

/-- Dxyn (R121): the rows are read first, the coordinates are the old Vx and Vy, VF is written last. Where R121's prose on a second draw differs from its pseudocode the pseudocode stands: log 12. -/
def execDrw (x y : Reg) (n : Nat) (s : State) : Result :=
  match readBlock s (s.indexAddr 0) n with
  | .error a => raise (.outOfBounds a .data) s
  | .ok rows =>
    let drawn := drawCells (spriteCells (s.readV x).toNat (s.readV y).toNat 0 rows) s.pix false
    complete (State.writeFlag { s with pix := drawn.1 } drawn.2)

end Sys2Proof.Machine
end

