-- ==== Sys2Proof/Machine/IndexMemory.lean ====
section
/-! DEFINITION. Index register and memory instructions (spec/44_index_memory.md): I plus an offset is the only addressing mode, and no access changes I. -/

namespace Sys2Proof.Machine

/-- Annn (R170) -/
def execLdI (nnn : Addr12) (s : State) : Result := complete { s with i := zext16 nnn }

/-- Fx1E (R171): VF is not written, the spec's D6. -/
def execAddI (x : Reg) (s : State) : Result := complete { s with i := indexSum s.i (s.readV x) }

/-- Fx29 (R172) -/
def execLdF (x : Reg) (s : State) : Result := complete { s with i := glyphAddr (s.readV x) }

/-- Fx33 (R173): a fault at any of the three bytes leaves none written (40_step_cycle.md R107). -/
def execLdB (x : Reg) (s : State) : Result :=
  match writeBlock s (s.indexAddr 0) (bcdDigits (s.readV x)) with
  | .error a => raise (.outOfBounds a .data) s
  | .ok s' => complete s'

/-- Fx55 (R174): a fault at any byte leaves none written (40_step_cycle.md R107). -/
def execLdMemV (x : Reg) (s : State) : Result :=
  match writeBlock s (s.indexAddr 0) (regsUpTo s x) with
  | .error a => raise (.outOfBounds a .data) s
  | .ok s' => complete s'

/-- Fx65 (R175): a fault at any byte leaves no register written (40_step_cycle.md R107). -/
def execLdVMem (x : Reg) (s : State) : Result :=
  match readBlock s (s.indexAddr 0) (x.val + 1) with
  | .error a => raise (.outOfBounds a .data) s
  | .ok bytes => complete { s with v := loadRegs s.v 0 bytes }

end Sys2Proof.Machine
end

