-- ==== Sys2Proof/Machine/KeysTimers.lean ====
section
/-! DEFINITION. Key and timer instructions (spec/45_keys_timers.md). -/

namespace Sys2Proof.Machine

/-- Skip on the level of the key numbered Vx; a number above 15 is OUT_OF_BOUNDS(k, KEY) (60_exceptions.md R205, the spec's D9). -/
def skipOnKey (x : Reg) (level : Bool) (s : State) : Result :=
  if h : (s.readV x).toNat < 16 then complete (s.skipIf (s.keys[(s.readV x).toNat] == level))
  else raise (.outOfBounds (s.readV x).toNat .key) s

/-- Ex9E (R190) -/
def execSkp (x : Reg) (s : State) : Result := skipOnKey x true s

/-- ExA1 (R191) -/
def execSknp (x : Reg) (s : State) : Result := skipOnKey x false s

/-- Fx07 (R192) -/
def execLdVDt (x : Reg) (s : State) : Result := complete (s.writeV x s.dt)

/-- Fx0A (R193): with no key pressed PC goes back to this instruction, and the step still returns OK (40_step_cycle.md R108). -/
def execLdVK (x : Reg) (s : State) : Result :=
  match lowestPressed s.keys with
  | none => complete (s.jump s.instrAddr)
  | some k => complete (s.writeV x (BitVec.ofNat 8 k.val))

/-- Fx15 (R194) -/
def execLdDtV (x : Reg) (s : State) : Result := complete { s with dt := s.readV x }

/-- Fx18 (R195): no beep here, the tick that finds ST = 1 beeps. -/
def execLdStV (x : Reg) (s : State) : Result := complete { s with st := s.readV x }

end Sys2Proof.Machine
end

