-- ==== Sys2Proof/Machine/RegisterAlu.lean ====
section
/-! DEFINITION. Register and ALU instructions (spec/43_register_alu.md). -/

namespace Sys2Proof.Machine

/-- 6xkk (R150) -/
def execLdImm (x : Reg) (kk : Byte) (s : State) : Result := complete (s.writeV x kk)

/-- 7xkk (R151): wraps, and VF is no flag here. -/
def execAddImm (x : Reg) (kk : Byte) (s : State) : Result := complete (s.writeV x (s.readV x + kk))

/-- 8xy1 (R152) -/
def execOr (x y : Reg) (s : State) : Result := complete (s.writeV x (s.readV x ||| s.readV y))

/-- 8xy2 (R153) -/
def execAnd (x y : Reg) (s : State) : Result := complete (s.writeV x (s.readV x &&& s.readV y))

/-- 8xy3 (R154) -/
def execXor (x y : Reg) (s : State) : Result := complete (s.writeV x (s.readV x ^^^ s.readV y))

/-- 8xy4 (R155) -/
def execAddReg (x y : Reg) (s : State) : Result :=
  complete (s.writeResultThenFlag x (s.readV x + s.readV y) (carry (s.readV x) (s.readV y)))

/-- 8xy5 (R156) -/
def execSub (x y : Reg) (s : State) : Result :=
  complete (s.writeResultThenFlag x (s.readV x - s.readV y) (notBorrow (s.readV x) (s.readV y)))

/-- 8xy6 (R157): the shifted source is Vx. -/
def execShr (x : Reg) (s : State) : Result :=
  complete (s.writeResultThenFlag x (s.readV x >>> 1) (shiftedOutRight (s.readV x)))

/-- 8xy7 (R158) -/
def execSubn (x y : Reg) (s : State) : Result :=
  complete (s.writeResultThenFlag x (s.readV y - s.readV x) (notBorrow (s.readV y) (s.readV x)))

/-- 8xyE (R159): the shifted source is Vx. -/
def execShl (x : Reg) (s : State) : Result :=
  complete (s.writeResultThenFlag x (s.readV x <<< 1) (shiftedOutLeft (s.readV x)))

/-- Cxkk (R160): rnd is the step's input byte, a free value (40_step_cycle.md R110; log 3). -/
def execRnd (x : Reg) (kk : Byte) (s : State) : Result := complete (s.writeV x (s.rnd &&& kk))

end Sys2Proof.Machine
end

