-- ==== Sys2Proof/Machine/Cycle.lean ====
section
/-! DEFINITION. The dispatcher state machine of one `step(rnd)` (spec/40_step_cycle.md R100 to R111), and where a program's next word is placed. -/

namespace Sys2Proof.Machine

/-- DECODE and EXECUTE (R104), given the word and the state after fetch and advance. -/
def decodeAndExecute (w : Word) (s : State) : Result :=
  match decodeWord w with
  | .instr i => exec i s
  | .unrecognized _ => takeDecodeError w s

/-- One cycle of a RUNNING machine: FETCH, ADVANCE, DECODE, EXECUTE (R109). A fetch that faults changes nothing but STATUS (R101). -/
def cycle (rnd : Byte) (s : State) : Result :=
  match fetch s with
  | .error a => .next (haltWith (.outOfBounds a .fetch) s)
  | .ok w => decodeAndExecute w (advance w rnd s)

/-- The transaction `step(rnd)`: refused before `load` (70_reset_and_hazards.md R244; log 6); a HALTED machine changes nothing and returns its error (R100); else one cycle. -/
def stepWith (rnd : Byte) (s : State) : Result :=
  if s.loaded then
    match s.status with
    | .halted k => .next { s with reply := .stillHalted k }
    | .running => cycle rnd s
  else .refused .beforeLoad

/-- Where `step` fetches next; 0x200 for a PC that no fetch can use (log 7). -/
def fetchPlace (s : State) : Word := if s.pc.toNat + 1 ≤ 4095 then s.pc else 0x200

/-- s ready to run the word as its very next instruction: the two bytes at the fetch place, the machine loaded and RUNNING (log 7). -/
def placeWord (s : State) (w : Word) : State :=
  { s with
    mem := Memory.putList s.config.font s.mem (fetchPlace s).toNat [highByte w, lowByte w]
    pc := fetchPlace s
    loaded := true
    status := .running }

end Sys2Proof.Machine
end

