-- ==== Sys2Proof/Machine/Step.lean ====
section
/-! DEFINITION. The step of the core: `step(rnd)` of spec/40_step_cycle.md R109 with the free rnd byte (R110). -/

namespace Sys2Proof.Machine

/-- One step, its rnd byte the next free value (log 3). -/
def step (s : State) : Host.Outcome State Fault Refusal := stepWith (Config.rndByte s.draws) s

/-- s with the instruction of nbits bits stored where step fetches next (log 7). -/
def State.withFetchWord (s : State) (nbits w : Nat) : State := placeWord s (BitVec.ofNat 16 (w % 2 ^ nbits))

end Sys2Proof.Machine
end

