-- ==== Sys2Proof/Machine/HostPort.lean ====
section
/-! DEFINITION. The host's transactions and read ports (spec/00_scope.md R5, 60_exceptions.md R212 to R217, 70_reset_and_hazards.md R240 to R244). -/

namespace Sys2Proof.Machine

/-- A transaction the host issues (00_scope.md R5). A set_key index is any natural number: R215 says what one above 15 does. -/
inductive Transaction where
  | init
  | load (bytes : List Byte)
  | setKey (index : Nat) (pressed : Bool)
  | step (rnd : Byte)
  | tickTimers
  deriving DecidableEq, Repr

/-- MAX_ROM (00_scope.md R6) -/
def maxRom : Nat := 3584

/-- PROG_BASE (00_scope.md R6) -/
def progBase : Nat := 512

/-- `load(bytes)` (70_reset_and_hazards.md R242): LOAD_ERROR changes nothing, and a load after a successful one is refused (R244; log 6). -/
def load (bytes : List Byte) (s : State) : Result :=
  if s.loaded then .refused .secondLoad
  else if maxRom < bytes.length then .next { s with reply := .loadError bytes.length }
  else .next { s with
    mem := Memory.putList s.config.font s.mem progBase bytes
    loaded := true
    reply := .ok }

/-- `set_key(index, pressed)` (60_exceptions.md R215), in any STATUS (R210). -/
def setKey (index : Nat) (pressed : Bool) (s : State) : Result :=
  if s.loaded then
    if h : index < 16 then .next { s with keys := s.keys.set index pressed, reply := .ok }
    else .next { s with reply := .invalidArgument index }
  else .refused .beforeLoad

/-- A timer after one tick: one less, and 0 stays 0 (60_exceptions.md R212). -/
def countDown (t : Byte) : Byte := if t = 0 then 0 else t - 1

/-- `tick_timers()` (60_exceptions.md R212), in any STATUS (R210): the beep is 1 when ST = 1 before the countdown. -/
def tickTimers (s : State) : Result :=
  if s.loaded then
    .next { s with dt := countDown s.dt, st := countDown s.st, reply := .beep (s.st == 1) }
  else .refused .beforeLoad

/-- One transaction (00_scope.md R5). -/
def transact (t : Transaction) (s : State) : Result :=
  match t with
  | .init => .next (resetMachine s)
  | .load bytes => load bytes s
  | .setKey index pressed => setKey index pressed s
  | .step rnd => stepWith rnd s
  | .tickTimers => tickTimers s

/-- A total order of transactions, one after the other, to the first refusal (20_memory.md R58): any interleaving the host chooses (70_reset_and_hazards.md R249). -/
def transactAll : List Transaction → State → Result
  | [], s => .next s
  | t :: ts, s =>
    match transact t s with
    | .next s' => transactAll ts s'
    | .fault f => .fault f
    | .refused r => .refused r

/-- The read port `display` (60_exceptions.md R216): bit x + 64·y is Pix[x, y]. -/
def displayPort (s : State) (index : Fin 2048) : Bool :=
  Display.pixel s.pix (Fin.ofNat 64 index.val) (Fin.ofNat 32 (index.val / 64))

/-- The read port `opcode` (10_state.md R30). -/
def opcodePort (s : State) : Word := s.opcode

/-- The read port `status` (10_state.md R31). -/
def statusPort (s : State) : Status := s.status

end Sys2Proof.Machine
end

