-- ==== Sys2Proof/Safety.lean ====
section
/-! DEFINITION. The terms claims use: what an instruction leaves unchanged, how it traps, the invariants of the machine, and how a row of the opcode table is decoded. -/

namespace Sys2Proof.Safety

open Sys2Proof.Machine

/-! ### Frames: t is a completed instruction's next state (reply OK) and differs from s in the named state only -/

/-- Every byte of memory reads as before. -/
def SameMemory (s t : State) : Prop := ∀ a : Nat, t.readByte a = s.readByte a

/-- Nothing changes but the general registers in rs. -/
def OnlyRegs (s t : State) (rs : List Reg) : Prop :=
  t = { s with v := t.v, reply := .ok } ∧ (∀ r, r ∉ rs → t.readV r = s.readV r) ∧ SameMemory s t

/-- Nothing changes but PC. -/
def OnlyPc (s t : State) : Prop := t = { s with pc := t.pc, reply := .ok } ∧ SameMemory s t

/-- Nothing changes but PC, SP and the stack entries in js. -/
def OnlyStack (s t : State) (js : List (Fin 16)) : Prop :=
  t = { s with pc := t.pc, sp := t.sp, stack := t.stack, reply := .ok } ∧
    (∀ j : Fin 16, j ∉ js → t.stack[j.val] = s.stack[j.val]) ∧ SameMemory s t

/-- Nothing changes but I. -/
def OnlyIndex (s t : State) : Prop := t = { s with i := t.i, reply := .ok } ∧ SameMemory s t

/-- Nothing changes but DT. -/
def OnlyDelayTimer (s t : State) : Prop := t = { s with dt := t.dt, reply := .ok } ∧ SameMemory s t

/-- Nothing changes but ST. -/
def OnlySoundTimer (s t : State) : Prop := t = { s with st := t.st, reply := .ok } ∧ SameMemory s t

/-- Nothing changes but the display. -/
def OnlyDisplay (s t : State) : Prop := t = { s with pix := t.pix, reply := .ok } ∧ SameMemory s t

/-- Nothing changes but the display and VF. -/
def OnlyDisplayAndFlag (s t : State) : Prop :=
  t = { s with pix := t.pix, v := t.v, reply := .ok } ∧
    (∀ r, r ≠ flagReg → t.readV r = s.readV r) ∧ SameMemory s t

/-- Nothing changes but the count bytes of memory from address a upwards. -/
def OnlyBytes (s t : State) (a count : Nat) : Prop :=
  t = { s with mem := t.mem, reply := .ok } ∧
    ∀ b : Nat, b < a ∨ a + count ≤ b → t.readByte b = s.readByte b

/-- t is the state a fatal error leaves in EXECUTE (40_step_cycle.md R107): the state EXECUTE began in, PC back at the instruction, STATUS halted, the error the reply. -/
def TakesFatal (s t : State) (e : StepError) : Prop :=
  t = { s with pc := s.instrAddr, status := .halted e.kind, reply := .error e } ∧ SameMemory s t

/-- What address a reads as once bytes stand at I, I + 1, …: the stored byte where a is one of those addresses, else the old one. -/
def byteAfterStore (s : State) (bytes : List Byte) (a : Nat) : Byte :=
  if h : s.indexAddr 0 ≤ a ∧ a < s.indexAddr bytes.length then
    bytes[a - s.indexAddr 0]'(by simp only [State.indexAddr] at h ⊢; omega)
  else s.readByte a

/-! ### Decoding -/

/-- Every word that carries a row's fixed bits decodes to the row's instruction with the operands at their fields (30_encoding.md R74). -/
def RowDecodes (mask pattern : Word) (instr : Word → Instr) : Prop :=
  ∀ w : Word, w &&& mask = pattern → decodeWord w = .instr (instr w)

/-- A step finds an instruction word: the machine is loaded and RUNNING, and both bytes exist (40_step_cycle.md R100, R101). -/
abbrev CanFetch (s : State) : Prop := s.loaded = true ∧ s.status = .running ∧ s.pc.toNat + 1 ≤ 4095

/-! ### Invariants -/

/-- What every transaction keeps: memory in canonical form; HALTED(DECODE_ERROR) only under the HALT policy (10_state.md R31); PC at most 0x10FE (R23) and every stack entry at most 0x1000, the highest address after an instruction. -/
abbrev Inv (s : State) : Prop :=
  Memory.wf s.config.font s.mem = true ∧
  (s.status = .halted .decodeError → s.config.decodeErrorPolicy = .halts) ∧
  s.pc.toNat ≤ 0x10FE ∧
  ∀ j : Fin 16, s.stack[j.val].toNat ≤ 0x1000

/-- A sprite's set bits as the display cells they toggle: cell (x, y) is toggled by row r and column c when both wrap onto it (41_display.md R121). -/
def Covers (cx cy : Nat) (rows : List Byte) (x : Fin 64) (y : Fin 32) : Prop :=
  ∃ (r c : Nat) (h : r < rows.length), c < 8 ∧ (rows[r]).getLsbD (7 - c) = true ∧
    (cx + c) % 64 = x.val ∧ (cy + r) % 32 = y.val

/-- The replies of transactions issued one after the other (00_scope.md R5), to the first refusal. -/
def replies : List Transaction → State → List Reply
  | [], _ => []
  | tr :: trs, s =>
    match transact tr s with
    | .next s' => s'.reply :: replies trs s'
    | .fault _ => []
    | .refused _ => []

/-- The outcome with every next state changed by f. -/
def mapNext (f : State → State) : Result → Result
  | .next s => .next (f s)
  | .fault r => .fault r
  | .refused r => .refused r

/-- The reset state of 10_state.md R33 as it reads, under a given FONT, but for the model's own fields. -/
def AtReset (font : Font) (t : State) : Prop :=
  (∀ r, t.readV r = 0) ∧ t.i = 0 ∧ t.pc = 512 ∧ (∀ j : Fin 16, t.stack[j.val] = 0) ∧ t.sp = 0 ∧
  t.dt = 0 ∧ t.st = 0 ∧
  (∀ (a : Nat) (h : a < 80), t.readByte a = font[a]) ∧ (∀ a : Nat, 80 ≤ a → t.readByte a = 0) ∧
  (∀ x y, Display.pixel t.pix x y = false) ∧ (∀ k : Fin 16, t.keys[k.val] = false) ∧
  t.opcode = 0 ∧ t.status = .running

end Sys2Proof.Safety
end

