-- ==== Sys2Proof/Certificates/Slice0/Obligations.lean ====
section
/-! DEFINITION. The statements for the provers, one def each, from the numbered rules of spec/. exec is given the state after fetch and advance (00_scope.md R10); a frame Only… says that nothing else changes and that the reply is OK. -/

open Sys2Proof Sys2Proof.Machine Sys2Proof.Safety

/-! ### Encoding -/

/-- Every well-formed instruction survives encoding and decoding (30_encoding.md R70 to R74). -/
def Obligations.DecodeEncodeRoundTrip : Prop :=
  ∀ i : Instr, i.wellFormed = true → decodeWord (encode i) = .instr i

/-- A word that decodes gives a well-formed instruction whose encoding is the word, but for the ignored y nibble of 8xy6 and 8xyE, which the encoder writes 0 (30_encoding.md R74, R77; log 9). -/
def Obligations.EncodeDecodeKeepsWord : Prop :=
  ∀ (w : Word) (i : Instr), decodeWord w = .instr i → i.wellFormed = true ∧
    encode i = (match i with
      | .shr _ => w &&& 0xFF0F
      | .shl _ => w &&& 0xFF0F
      | _ => w)

/-- A word decodes exactly when it carries the fixed bits of a row of the opcode table, to an instruction of that row, and no word carries those of two rows (30_encoding.md R74; strict matching is the spec's D8). -/
def Obligations.DecoderFollowsOpcodeTable : Prop :=
  ∀ w : Word,
    (∀ i, decodeWord w = .instr i → ∃ row ∈ opcodeTable, row.fits w = true ∧ row.mnemonic = i.mnemonic) ∧
    (∀ row ∈ opcodeTable, row.fits w = true → ∃ i, decodeWord w = .instr i ∧ i.mnemonic = row.mnemonic) ∧
    (∀ row₁ ∈ opcodeTable, ∀ row₂ ∈ opcodeTable, row₁.fits w = true → row₂.fits w = true → row₁ = row₂)

/-- The unrecognized words are exactly those of R75's table (30_encoding.md §3); the strict matching is the spec's D8. -/
def Obligations.UnrecognizedWordsAreTheTables : Prop :=
  ∀ w : Word, (∃ why, decodeWord w = .unrecognized why) ↔
    (bits w 15 12 = 0x0 ∧ w ≠ 0x00E0 ∧ w ≠ 0x00EE) ∨
    (bits w 15 12 = 0x5 ∧ bits w 3 0 ≠ 0) ∨
    (bits w 15 12 = 0x8 ∧ bits w 3 0 ∈ [0x0, 0x8, 0x9, 0xA, 0xB, 0xC, 0xD, 0xF]) ∨
    (bits w 15 12 = 0x9 ∧ bits w 3 0 ≠ 0) ∨
    (bits w 15 12 = 0xE ∧ bits w 7 0 ∉ [0x9E, 0xA1]) ∨
    (bits w 15 12 = 0xF ∧ bits w 7 0 ∉ [0x07, 0x0A, 0x15, 0x18, 0x1E, 0x29, 0x33, 0x55, 0x65])

/-- Words written out from the encodings, one or two a family, decode to the instruction they stand for (30_encoding.md R71, R73). -/
def Obligations.SampleWordsDecode : Prop :=
  decodeWord 0x00EE = .instr .ret ∧ decodeWord 0x2345 = .instr (.call 0x345) ∧
  decodeWord 0x3AB7 = .instr (.seImm 0xA 0xB7) ∧ decodeWord 0x95A0 = .instr (.sneReg 0x5 0xA) ∧
  decodeWord 0x8F25 = .instr (.sub 0xF 0x2) ∧ decodeWord 0x81F6 = .instr (.shr 0x1) ∧
  decodeWord 0xAFFE = .instr (.ldI 0xFFE) ∧ decodeWord 0xD12F = .instr (.drw 0x1 0x2 15) ∧
  decodeWord 0xECA1 = .instr (.sknp 0xC) ∧ decodeWord 0xF365 = .instr (.ldVMem 0x3)

/-! ### The step cycle -/

/-- A step whose word decodes runs that instruction on the state with OPCODE written, PC advanced by 2 and the step's rnd byte latched, with a given rnd or the next free one (40_step_cycle.md R101 to R104, R110; OPCODE's time of writing is the spec's D25, the rnd input its D16, log 3). -/
def Obligations.StepRunsDecodedInstruction : Prop :=
  ∀ (s : State) (i : Instr), CanFetch s → decodeWord (wordAtPc s) = .instr i →
    (∀ rnd : Byte, transact (.step rnd) s =
      exec i { s with opcode := wordAtPc s, pc := s.pc + 2, rnd := rnd, draws := s.draws + 1 }) ∧
    step s = exec i { s with
      opcode := wordAtPc s, pc := s.pc + 2, rnd := Config.rndByte s.draws, draws := s.draws + 1 }

/-- An unrecognized word: PC keeps its advance, OPCODE holds the word, the reply is DECODE_ERROR(word), STATUS follows the policy and nothing else changes (40_step_cycle.md R106; the policy is the spec's parameter D4, log 4; rnd and draws are the model's own, log 3). -/
def Obligations.UnrecognizedWordFollowsPolicy : Prop :=
  ∀ (s : State) (rnd : Byte) (why : DecodeReject), CanFetch s → decodeWord (wordAtPc s) = .unrecognized why →
    ∃ t, transact (.step rnd) s = .next t ∧
      t = { s with
        opcode := wordAtPc s, pc := s.pc + 2, rnd := rnd, draws := s.draws + 1, reply := t.reply,
        status := t.status } ∧
      t.reply = .error (.decodeError (wordAtPc s)) ∧ t.reply.code = some 1 ∧
      (s.config.decodeErrorPolicy = .continues → t.status = .running) ∧
      (s.config.decodeErrorPolicy = .halts → t.status = .halted .decodeError)

/-- A step of a HALTED(k) machine changes no state and returns the error k (40_step_cycle.md R100, the spec's D3; that the reply has no info is the model's, log 5). -/
def Obligations.HaltedStepChangesNothing : Prop :=
  ∀ (s : State) (k : HaltKind) (rnd : Byte), s.loaded = true → s.status = .halted k →
    transact (.step rnd) s = .next { s with reply := .stillHalted k } ∧
    step s = .next { s with reply := .stillHalted k }

/-- FETCH: both bytes big-endian when PC + 1 ≤ 4095, else the step changes only STATUS and reports the offending address (40_step_cycle.md R101; PC + 1 not wrapped is the spec's D10, the latch and the rest unchanged its D2 and D3, OPCODE not written its D25; that rnd and draws stay is the model's own, log 3). -/
def Obligations.FetchReadsTwoBytesOrHalts : Prop :=
  (∀ s : State, s.pc.toNat + 1 ≤ 4095 → ∃ w, fetch s = .ok w ∧
    w.toNat = (s.readByte s.pc.toNat).toNat * 256 + (s.readByte (s.pc.toNat + 1)).toNat) ∧
  (∀ (s : State) (rnd : Byte), s.loaded = true → s.status = .running → 4095 < s.pc.toNat + 1 →
    ∃ t, transact (.step rnd) s = .next t ∧
      t = { s with
        status := .halted .outOfBounds
        reply := .error (.outOfBounds (if 4095 < s.pc.toNat then s.pc.toNat else s.pc.toNat + 1) .fetch) })

/-- Outside the boot order initialize, one successful load, then the rest, a transaction is refused, and `initialize` begins the order anew (70_reset_and_hazards.md §2, the spec's D14; that set_key and tick_timers count among the rest is the model's reading, log 6). -/
def Obligations.BootOrderIsEnforced : Prop :=
  (∀ (s : State) (bytes : List Byte), s.loaded = true → transact (.load bytes) s = .refused .secondLoad) ∧
  (∀ s : State, ∃ t, transact .init s = .next t ∧ t.loaded = false) ∧
  (∀ s : State, s.loaded = false →
    step s = .refused .beforeLoad ∧ transact .tickTimers s = .refused .beforeLoad ∧
    (∀ rnd, transact (.step rnd) s = .refused .beforeLoad) ∧
    ∀ index pressed, transact (.setKey index pressed) s = .refused .beforeLoad)

/-- Once loaded, every step ends, with one step result of code 0 to 4: it never faults, blocks or refuses (40_step_cycle.md R109, 60_exceptions.md R200). -/
def Obligations.LoadedStepAlwaysAnswers : Prop :=
  ∀ s : State, s.loaded = true →
    (∀ rnd : Byte, ∃ t, transact (.step rnd) s = .next t ∧ ∃ c ≤ 4, t.reply.code = some c) ∧
    ∃ t, step s = .next t ∧ ∃ c ≤ 4, t.reply.code = some c

/-- A step that ends in a fatal error leaves everything as it was but STATUS and OPCODE, which holds the fetched word, or its old value where the fetch itself faulted (40_step_cycle.md R107, 60_exceptions.md R208; the rollback is the spec's D2 and D25; rnd and draws are the model's own, log 3). -/
def Obligations.FatalStepRollsBack : Prop :=
  ∀ (s t : State) (rnd : Byte) (e : StepError), s.loaded = true → s.status = .running →
    transact (.step rnd) s = .next t → t.reply = .error e → (∀ w, e ≠ .decodeError w) →
    t = { s with
      opcode := t.opcode, status := .halted e.kind, reply := .error e, rnd := t.rnd, draws := t.draws } ∧
    t.opcode = (if s.pc.toNat + 1 ≤ 4095 then wordAtPc s else s.opcode)

/-- Which instruction raises which error, and when: CALL the overflow, RET the underflow, DRW and the memory instructions the first of their addresses I + r above 4095, the key skips a key above 15, no other instruction any (60_exceptions.md R202 to R205, R207; the key error is the spec's D9, unwrapped addresses its D10, the first address its D23). -/
def Obligations.ErrorsComeFromNamedInstructions : Prop :=
  ∀ (i : Instr) (s t : State) (e : StepError), exec i s = .next t → t.reply = .error e →
    (e = .stackOverflow ∧ s.sp.val = 16 ∧ ∃ nnn, i = .call nnn) ∨
    (e = .stackUnderflow ∧ s.sp.val = 0 ∧ i = .ret) ∨
    (∃ n r, e = .outOfBounds (s.indexAddr r) .data ∧ r < n ∧ 4095 < s.indexAddr r ∧
      (∀ q < r, s.indexAddr q ≤ 4095) ∧
      ((∃ x y, i = .drw x y n) ∨ (∃ x, i = .ldB x ∧ n = 3) ∨
        ∃ x, (i = .ldMemV x ∨ i = .ldVMem x) ∧ n = x.val + 1)) ∨
    (∃ k x, e = .outOfBounds k .key ∧ 15 < k ∧ k = (s.readV x).toNat ∧ (i = .skp x ∨ i = .sknp x))

/-! ### Display -/

/-- 00E0 (41_display.md R120). -/
def Obligations.ClearScreenClearsEveryPixel : Prop :=
  RowDecodes 0xFFFF 0x00E0 (fun _ => .cls) ∧
  ∀ s : State, ∃ t, exec .cls s = .next t ∧ OnlyDisplay s t ∧ ∀ x y, Display.pixel t.pix x y = false

/-- Dxyn with every row in memory: each cell a set bit covers is toggled, no other; VF is 1 exactly when a covered cell was lit; only the display and VF change (41_display.md R121). -/
def Obligations.DrawTogglesCoveredCells : Prop :=
  RowDecodes 0xF000 0xD000 (fun w => .drw (fieldX w) (fieldY w) (fieldN w)) ∧
  ∀ (s : State) (x y : Reg) (n : Nat), n ≤ 15 → (∀ r < n, s.indexAddr r ≤ 4095) →
    let rows := (List.range n).map (fun r => s.readByte (s.indexAddr r))
    let covers := Covers (s.readV x).toNat (s.readV y).toNat rows
    ∃ t, exec (.drw x y n) s = .next t ∧ OnlyDisplayAndFlag s t ∧
      (∀ px py, covers px py → Display.pixel t.pix px py = !(Display.pixel s.pix px py)) ∧
      (∀ px py, ¬ covers px py → Display.pixel t.pix px py = Display.pixel s.pix px py) ∧
      ((∃ px py, covers px py ∧ Display.pixel s.pix px py = true) → t.readV 15 = 1) ∧
      ((∀ px py, covers px py → Display.pixel s.pix px py = false) → t.readV 15 = 0)

/-- Dxyn with a row above 4095: OUT_OF_BOUNDS at the first such address and nothing drawn (41_display.md R121; the rollback is the spec's D2, unwrapped addresses its D10). -/
def Obligations.DrawOutOfBoundsDrawsNothing : Prop :=
  ∀ (s : State) (x y : Reg) (n r : Nat), r < n → 4095 < s.indexAddr r →
    (∀ q < r, s.indexAddr q ≤ 4095) →
    ∃ t, exec (.drw x y n) s = .next t ∧ TakesFatal s t (.outOfBounds (s.indexAddr r) .data)

/-- Drawing the same sprite at the same place again restores every pixel, and VF is then 1 exactly when the first draw had lit a pixel (95_test_vectors.md S6; R121's looser corner case is read by its pseudocode, log 12). -/
def Obligations.DrawTwiceRestoresDisplay : Prop :=
  ∀ (s t u : State) (x y : Reg) (n : Nat), n ≤ 15 → (∀ r < n, s.indexAddr r ≤ 4095) →
    exec (.drw x y n) s = .next t →
    u.pix = t.pix → u.i = s.i → SameMemory s u → u.readV x = s.readV x → u.readV y = s.readV y →
    ∃ w, exec (.drw x y n) u = .next w ∧ w.pix = s.pix ∧
      (w.readV 15 = 1 ↔ ∃ px py, Display.pixel s.pix px py = false ∧ Display.pixel t.pix px py = true)

/-- Pixel (x, y) is bit x + 64·y of the display port, and only 00E0, Dxyn and `initialize` change a pixel (41_display.md R122). -/
def Obligations.PixelsChangeOnlyByDisplayOperations : Prop :=
  (∀ (s : State) (x : Fin 64) (y : Fin 32) (h : x.val + 64 * y.val < 2048),
    displayPort s ⟨x.val + 64 * y.val, h⟩ = Display.pixel s.pix x y) ∧
  (∀ (i : Instr) (s t : State), exec i s = .next t → t.pix ≠ s.pix →
    i = .cls ∨ ∃ x y n, i = .drw x y n) ∧
  (∀ (tr : Transaction) (s t : State), transact tr s = .next t → t.pix ≠ s.pix →
    tr = .init ∨ ∃ rnd, tr = .step rnd ∧
      (decodeWord (wordAtPc s) = .instr .cls ∨ ∃ x y n, decodeWord (wordAtPc s) = .instr (.drw x y n)))

/-! ### Control transfer -/

/-- 1nnn (42_control_flow.md R131). -/
def Obligations.JumpGoesToAddress : Prop :=
  RowDecodes 0xF000 0x1000 (fun w => .jp (fieldNnn w)) ∧
  ∀ (s : State) (nnn : Addr12), ∃ t, exec (.jp nnn) s = .next t ∧ OnlyPc s t ∧ t.pc.toNat = nnn.toNat

/-- Bnnn: the offset is V0, and the sum is not reduced (42_control_flow.md R137; the unreduced sum is the spec's D12). -/
def Obligations.OffsetJumpAddsV0 : Prop :=
  RowDecodes 0xF000 0xB000 (fun w => .jpV0 (fieldNnn w)) ∧
  ∀ (s : State) (nnn : Addr12), ∃ t, exec (.jpV0 nnn) s = .next t ∧ OnlyPc s t ∧
    t.pc.toNat = nnn.toNat + (s.readV 0).toNat

/-- 2nnn: pushes the advanced PC and jumps, or STACK_OVERFLOW on a full stack (42_control_flow.md R132, 10_state.md R24; the pointer convention is the spec's D26, the rollback its D2). -/
def Obligations.CallPushesReturnAddress : Prop :=
  RowDecodes 0xF000 0x2000 (fun w => .call (fieldNnn w)) ∧
  (∀ (s : State) (nnn : Addr12) (h : s.sp.val < 16), ∃ t, exec (.call nnn) s = .next t ∧
    OnlyStack s t [⟨s.sp.val, h⟩] ∧ t.stack[s.sp.val] = s.pc ∧ t.sp.val = s.sp.val + 1 ∧
    t.pc.toNat = nnn.toNat) ∧
  (∀ (s : State) (nnn : Addr12), s.sp.val = 16 →
    ∃ t, exec (.call nnn) s = .next t ∧ TakesFatal s t .stackOverflow)

/-- 00EE: pops into PC, the entry keeps its value, or STACK_UNDERFLOW on an empty stack (42_control_flow.md R130, 10_state.md R24; the pointer convention is the spec's D26, the rollback its D2). -/
def Obligations.ReturnPopsIntoPc : Prop :=
  RowDecodes 0xFFFF 0x00EE (fun _ => .ret) ∧
  (∀ (s : State) (j : Fin 16), s.sp.val = j.val + 1 → ∃ t, exec .ret s = .next t ∧
    OnlyStack s t [] ∧ t.sp.val = j.val ∧ t.pc = s.stack[j.val]) ∧
  (∀ s : State, s.sp.val = 0 → ∃ t, exec .ret s = .next t ∧ TakesFatal s t .stackUnderflow)

/-- A return from a state with the stack a call left goes to the instruction after the call, with SP as before it (95_test_vectors.md S5). -/
def Obligations.CallThenReturnComesBack : Prop :=
  ∀ (s t u : State) (nnn : Addr12), s.sp.val < 16 → exec (.call nnn) s = .next t →
    u.stack = t.stack → u.sp = t.sp →
    ∃ w, exec .ret u = .next w ∧ w.pc = s.pc ∧ w.sp = s.sp ∧ w.reply = .ok

/-- 3xkk and 4xkk: PC moves a further 2 exactly when the condition holds (42_control_flow.md R133, R134). -/
def Obligations.ImmediateSkipsAdvancePc : Prop :=
  RowDecodes 0xF000 0x3000 (fun w => .seImm (fieldX w) (fieldKk w)) ∧
  RowDecodes 0xF000 0x4000 (fun w => .sneImm (fieldX w) (fieldKk w)) ∧
  ∀ (s : State) (x : Reg) (kk : Byte),
    (∃ t, exec (.seImm x kk) s = .next t ∧ OnlyPc s t ∧
      t.pc.toNat = if s.readV x = kk then (s.pc.toNat + 2) % 2 ^ 16 else s.pc.toNat) ∧
    (∃ t, exec (.sneImm x kk) s = .next t ∧ OnlyPc s t ∧
      t.pc.toNat = if s.readV x = kk then s.pc.toNat else (s.pc.toNat + 2) % 2 ^ 16)

/-- 5xy0 and 9xy0: PC moves a further 2 exactly when the condition holds; 5xyN and 9xyN with N ≠ 0 are unrecognized (42_control_flow.md R135, R136; the strict low nibble is the spec's D8). -/
def Obligations.RegisterSkipsAdvancePc : Prop :=
  RowDecodes 0xF00F 0x5000 (fun w => .seReg (fieldX w) (fieldY w)) ∧
  RowDecodes 0xF00F 0x9000 (fun w => .sneReg (fieldX w) (fieldY w)) ∧
  (∀ w : Word, bits w 15 12 = 0x5 ∨ bits w 15 12 = 0x9 → bits w 3 0 ≠ 0 → ∃ why, decodeWord w = .unrecognized why) ∧
  ∀ (s : State) (x y : Reg),
    (∃ t, exec (.seReg x y) s = .next t ∧ OnlyPc s t ∧
      t.pc.toNat = if s.readV x = s.readV y then (s.pc.toNat + 2) % 2 ^ 16 else s.pc.toNat) ∧
    (∃ t, exec (.sneReg x y) s = .next t ∧ OnlyPc s t ∧
      t.pc.toNat = if s.readV x = s.readV y then s.pc.toNat else (s.pc.toNat + 2) % 2 ^ 16)

/-! ### Registers and ALU -/

/-- 6xkk (43_register_alu.md R150). -/
def Obligations.LoadImmediateSetsRegister : Prop :=
  RowDecodes 0xF000 0x6000 (fun w => .ldImm (fieldX w) (fieldKk w)) ∧
  ∀ (s : State) (x : Reg) (kk : Byte), ∃ t, exec (.ldImm x kk) s = .next t ∧ OnlyRegs s t [x] ∧ t.readV x = kk

/-- 7xkk: wraps modulo 256, and VF changes only as the destination (43_register_alu.md R151). -/
def Obligations.AddImmediateWraps : Prop :=
  RowDecodes 0xF000 0x7000 (fun w => .addImm (fieldX w) (fieldKk w)) ∧
  ∀ (s : State) (x : Reg) (kk : Byte), ∃ t, exec (.addImm x kk) s = .next t ∧ OnlyRegs s t [x] ∧
    (t.readV x).toNat = ((s.readV x).toNat + kk.toNat) % 256

/-- 8xy1, 8xy2, 8xy3 bit by bit; VF changes only as the destination (43_register_alu.md R152 to R154). -/
def Obligations.LogicalInstructionsWorkBitwise : Prop :=
  RowDecodes 0xF00F 0x8001 (fun w => .orReg (fieldX w) (fieldY w)) ∧
  RowDecodes 0xF00F 0x8002 (fun w => .andReg (fieldX w) (fieldY w)) ∧
  RowDecodes 0xF00F 0x8003 (fun w => .xorReg (fieldX w) (fieldY w)) ∧
  ∀ (s : State) (x y : Reg),
    (∃ t, exec (.orReg x y) s = .next t ∧ OnlyRegs s t [x] ∧ ∀ b < 8,
      (t.readV x).getLsbD b = ((s.readV x).getLsbD b || (s.readV y).getLsbD b)) ∧
    (∃ t, exec (.andReg x y) s = .next t ∧ OnlyRegs s t [x] ∧ ∀ b < 8,
      (t.readV x).getLsbD b = ((s.readV x).getLsbD b && (s.readV y).getLsbD b)) ∧
    (∃ t, exec (.xorReg x y) s = .next t ∧ OnlyRegs s t [x] ∧ ∀ b < 8,
      (t.readV x).getLsbD b = ((s.readV x).getLsbD b != (s.readV y).getLsbD b))

/-- 8xy4: the sum modulo 256, and the carry in VF, written last (43_register_alu.md R155; that VF ends with the flag when x = F is the spec's D5). -/
def Obligations.AddRegistersSetsCarry : Prop :=
  RowDecodes 0xF00F 0x8004 (fun w => .addReg (fieldX w) (fieldY w)) ∧
  ∀ (s : State) (x y : Reg), ∃ t, exec (.addReg x y) s = .next t ∧ OnlyRegs s t [x, 15] ∧
    (x ≠ 15 → (t.readV x).toNat = ((s.readV x).toNat + (s.readV y).toNat) % 256) ∧
    t.readV 15 = if (s.readV x).toNat + (s.readV y).toNat ≥ 256 then 1 else 0

/-- 8xy5 and 8xy7: the difference modulo 256, and not-borrow in VF, written last (43_register_alu.md R156, R158; that VF ends with the flag when x = F is the spec's D5). -/
def Obligations.SubtractionsSetNotBorrow : Prop :=
  RowDecodes 0xF00F 0x8005 (fun w => .sub (fieldX w) (fieldY w)) ∧
  RowDecodes 0xF00F 0x8007 (fun w => .subn (fieldX w) (fieldY w)) ∧
  ∀ (s : State) (x y : Reg),
    (∃ t, exec (.sub x y) s = .next t ∧ OnlyRegs s t [x, 15] ∧
      (x ≠ 15 → (t.readV x).toNat = ((s.readV x).toNat + 256 - (s.readV y).toNat) % 256) ∧
      t.readV 15 = if (s.readV x).toNat ≥ (s.readV y).toNat then 1 else 0) ∧
    (∃ t, exec (.subn x y) s = .next t ∧ OnlyRegs s t [x, 15] ∧
      (x ≠ 15 → (t.readV x).toNat = ((s.readV y).toNat + 256 - (s.readV x).toNat) % 256) ∧
      t.readV 15 = if (s.readV y).toNat ≥ (s.readV x).toNat then 1 else 0)

/-- 8xy6 and 8xyE: Vx shifted by one whatever y is, and the dropped bit in VF, written last (43_register_alu.md R157, R159; that VF ends with the flag when x = F is the spec's D5). -/
def Obligations.ShiftsSetDroppedBit : Prop :=
  RowDecodes 0xF00F 0x8006 (fun w => .shr (fieldX w)) ∧
  RowDecodes 0xF00F 0x800E (fun w => .shl (fieldX w)) ∧
  ∀ (s : State) (x : Reg),
    (∃ t, exec (.shr x) s = .next t ∧ OnlyRegs s t [x, 15] ∧
      (x ≠ 15 → (t.readV x).toNat = (s.readV x).toNat / 2) ∧
      (t.readV 15).toNat = (s.readV x).toNat % 2) ∧
    (∃ t, exec (.shl x) s = .next t ∧ OnlyRegs s t [x, 15] ∧
      (x ≠ 15 → (t.readV x).toNat = (s.readV x).toNat * 2 % 256) ∧
      (t.readV 15).toNat = (s.readV x).toNat / 128)

/-- Cxkk: the step's rnd byte, whatever it is, masked by kk (43_register_alu.md R160; rnd as an input of the step is the spec's D16, log 3). -/
def Obligations.RandomByteIsMasked : Prop :=
  RowDecodes 0xF000 0xC000 (fun w => .rnd (fieldX w) (fieldKk w)) ∧
  ∀ (s : State) (x : Reg) (kk : Byte), ∃ t, exec (.rnd x kk) s = .next t ∧ OnlyRegs s t [x] ∧
    ∀ b < 8, (t.readV x).getLsbD b = (s.rnd.getLsbD b && kk.getLsbD b)

/-! ### Index register and memory -/

/-- Annn and Fx29: I becomes nnn, or Vx × 5 with the whole of Vx (44_index_memory.md R170, R172; that the whole of Vx counts is the spec's conflict choice C1). -/
def Obligations.IndexLoads : Prop :=
  RowDecodes 0xF000 0xA000 (fun w => .ldI (fieldNnn w)) ∧
  RowDecodes 0xF0FF 0xF029 (fun w => .ldF (fieldX w)) ∧
  (∀ (s : State) (nnn : Addr12), ∃ t, exec (.ldI nnn) s = .next t ∧ OnlyIndex s t ∧ t.i.toNat = nnn.toNat) ∧
  (∀ (s : State) (x : Reg), ∃ t, exec (.ldF x) s = .next t ∧ OnlyIndex s t ∧
    t.i.toNat = (s.readV x).toNat * 5)

/-- Fx1E: I + Vx modulo 2^16, and VF unchanged (44_index_memory.md R171; VF unchanged is the spec's D6). -/
def Obligations.AddToIndexWraps : Prop :=
  RowDecodes 0xF0FF 0xF01E (fun w => .addI (fieldX w)) ∧
  ∀ (s : State) (x : Reg), ∃ t, exec (.addI x) s = .next t ∧ OnlyIndex s t ∧
    t.i.toNat = (s.i.toNat + (s.readV x).toNat) % 65536

/-- Fx33: the three decimal digits at I, I + 1, I + 2, or OUT_OF_BOUNDS at the first address above 4095 and no byte written (44_index_memory.md R173; the rollback is the spec's D2). -/
def Obligations.StoreDigitsWritesThreeBytes : Prop :=
  RowDecodes 0xF0FF 0xF033 (fun w => .ldB (fieldX w)) ∧
  ∀ (s : State) (x : Reg) (a : Nat), s.indexAddr 0 = a →
    (a + 2 ≤ 4095 → ∃ t, exec (.ldB x) s = .next t ∧ OnlyBytes s t a 3 ∧
      (t.readByte a).toNat = (s.readV x).toNat / 100 ∧
      (t.readByte (a + 1)).toNat = (s.readV x).toNat / 10 % 10 ∧
      (t.readByte (a + 2)).toNat = (s.readV x).toNat % 10) ∧
    (4095 < a + 2 → ∃ t, exec (.ldB x) s = .next t ∧
      TakesFatal s t (.outOfBounds (if 4095 < a then a else 4096) .data))

/-- Fx55: V0..Vx at I and above, I unchanged, or OUT_OF_BOUNDS at the first address above 4095 and no byte written (44_index_memory.md R174; I unchanged is the spec's D7, the rollback its D2). -/
def Obligations.StoreRegistersWritesBlock : Prop :=
  RowDecodes 0xF0FF 0xF055 (fun w => .ldMemV (fieldX w)) ∧
  ∀ (s : State) (x : Reg) (a : Nat), s.indexAddr 0 = a →
    (a + x.val ≤ 4095 → ∃ t, exec (.ldMemV x) s = .next t ∧ OnlyBytes s t a (x.val + 1) ∧
      ∀ r : Reg, r ≤ x → t.readByte (a + r.val) = s.readV r) ∧
    (4095 < a + x.val → ∃ t, exec (.ldMemV x) s = .next t ∧
      TakesFatal s t (.outOfBounds (if 4095 < a then a else 4096) .data))

/-- Fx65: V0..Vx from I and above, no other register and not I, or OUT_OF_BOUNDS at the first address above 4095 and no register written (44_index_memory.md R175; I unchanged is the spec's D7, the rollback its D2). -/
def Obligations.LoadRegistersReadsBlock : Prop :=
  RowDecodes 0xF0FF 0xF065 (fun w => .ldVMem (fieldX w)) ∧
  ∀ (s : State) (x : Reg) (a : Nat), s.indexAddr 0 = a →
    (a + x.val ≤ 4095 → ∃ t, exec (.ldVMem x) s = .next t ∧
      OnlyRegs s t ((List.finRange 16).filter (fun r => r ≤ x)) ∧
      ∀ r : Reg, r ≤ x → t.readV r = s.readByte (a + r.val)) ∧
    (4095 < a + x.val → ∃ t, exec (.ldVMem x) s = .next t ∧
      TakesFatal s t (.outOfBounds (if 4095 < a then a else 4096) .data))

/-- One byte written is read back at its address and at no other; an address above 4095 is reported as it is (20_memory.md R52, R53; that all of memory is writable is the spec's D18, unwrapped addresses its D10). -/
def Obligations.ByteWrittenIsReadBack : Prop :=
  ∀ (s : State) (a c : Nat) (b : Byte),
    (a ≤ 4095 → c ≤ 4095 → ∃ t, memWrite s a b = .ok t ∧ t = { s with mem := t.mem } ∧
      memRead t c = .ok (if c = a then b else s.readByte c)) ∧
    (4095 < a → memWrite s a b = .error a ∧ memRead s a = .error a)

/-- After an Fx55 or Fx33 inside memory the next fetch reads the stored bytes wherever they fall on the next word, on one of its bytes or on both, and the old bytes elsewhere (20_memory.md R60, the spec's D20). -/
def Obligations.StoredBytesAreFetchedNext : Prop :=
  ∀ (s : State) (x : Reg), s.pc.toNat + 1 ≤ 4095 →
    (s.indexAddr x.val ≤ 4095 → ∃ t, exec (.ldMemV x) s = .next t ∧ t.reply = .ok ∧
      fetch t = .ok (wordOfBytes
        (byteAfterStore s (regsUpTo s x) s.pc.toNat) (byteAfterStore s (regsUpTo s x) (s.pc.toNat + 1)))) ∧
    (s.indexAddr 2 ≤ 4095 → ∃ t, exec (.ldB x) s = .next t ∧ t.reply = .ok ∧
      fetch t = .ok (wordOfBytes
        (byteAfterStore s (bcdDigits (s.readV x)) s.pc.toNat)
        (byteAfterStore s (bcdDigits (s.readV x)) (s.pc.toNat + 1))))

/-! ### Keys and timers -/

/-- Ex9E and ExA1: skip on the level of key Vx, and a key number above 15 is fatal (45_keys_timers.md R190, R191; the error is the spec's D9, the rollback its D2). -/
def Obligations.KeySkipsReadTheLevel : Prop :=
  RowDecodes 0xF0FF 0xE09E (fun w => .skp (fieldX w)) ∧
  RowDecodes 0xF0FF 0xE0A1 (fun w => .sknp (fieldX w)) ∧
  (∀ (s : State) (x : Reg) (k : Fin 16), (s.readV x).toNat = k.val →
    (∃ t, exec (.skp x) s = .next t ∧ OnlyPc s t ∧
      t.pc = if s.keys[k.val] = true then s.pc + 2 else s.pc) ∧
    (∃ t, exec (.sknp x) s = .next t ∧ OnlyPc s t ∧
      t.pc = if s.keys[k.val] = true then s.pc else s.pc + 2)) ∧
  (∀ (s : State) (x : Reg), 15 < (s.readV x).toNat →
    (∃ t, exec (.skp x) s = .next t ∧ TakesFatal s t (.outOfBounds (s.readV x).toNat .key)) ∧
    (∃ t, exec (.sknp x) s = .next t ∧ TakesFatal s t (.outOfBounds (s.readV x).toNat .key)))

/-- Fx07 and Fx15 (45_keys_timers.md R192, R194). -/
def Obligations.DelayTimerMoves : Prop :=
  RowDecodes 0xF0FF 0xF007 (fun w => .ldVDt (fieldX w)) ∧
  RowDecodes 0xF0FF 0xF015 (fun w => .ldDtV (fieldX w)) ∧
  ∀ (s : State) (x : Reg),
    (∃ t, exec (.ldVDt x) s = .next t ∧ OnlyRegs s t [x] ∧ t.readV x = s.dt) ∧
    (∃ t, exec (.ldDtV x) s = .next t ∧ OnlyDelayTimer s t ∧ t.dt = s.readV x)

/-- Fx18: ST becomes Vx with no beep of its own; Vx ≥ 1 gives exactly one beep, on the Vx-th tick, and Vx = 0 none, however many ticks follow (45_keys_timers.md R195; which tick beeps is the spec's conflict choice C3, the one-bit reply its D28). -/
def Obligations.SoundTimerSetBeepsOnce : Prop :=
  RowDecodes 0xF0FF 0xF018 (fun w => .ldStV (fieldX w)) ∧
  ∀ (s : State) (x : Reg), ∃ t, exec (.ldStV x) s = .next t ∧ OnlySoundTimer s t ∧ t.st = s.readV x ∧
    (s.loaded = true → ∀ more : Nat,
      replies (List.replicate ((s.readV x).toNat + more) .tickTimers) t =
        (if s.readV x = 0 then [] else List.replicate ((s.readV x).toNat - 1) (.beep false) ++ [.beep true]) ++
          List.replicate more (.beep false))

/-- Fx0A: with no key pressed only PC moves, back to the instruction, which the next step fetches again; else Vx is the lowest pressed key (45_keys_timers.md R193). -/
def Obligations.WaitForKeyRewindsOrTakesLowest : Prop :=
  RowDecodes 0xF0FF 0xF00A (fun w => .ldVK (fieldX w)) ∧
  (∀ (s : State) (x : Reg), (∀ k : Fin 16, s.keys[k.val] = false) →
    ∃ t, exec (.ldVK x) s = .next t ∧ OnlyPc s t ∧ t.pc = s.pc - 2) ∧
  (∀ (s : State) (x : Reg) (k : Fin 16), s.keys[k.val] = true → (∀ j : Fin 16, j < k → s.keys[j.val] = false) →
    ∃ t, exec (.ldVK x) s = .next t ∧ OnlyRegs s t [x] ∧ (t.readV x).toNat = k.val) ∧
  (∀ (s : State) (x : Reg) (rnd : Byte), CanFetch s → decodeWord (wordAtPc s) = .instr (.ldVK x) →
    (∀ k : Fin 16, s.keys[k.val] = false) →
    ∃ t, transact (.step rnd) s = .next t ∧ t.reply = .ok ∧ t.pc = s.pc ∧ CanFetch t ∧ wordAtPc t = wordAtPc s)

/-! ### The host's transactions -/

/-- `tick_timers`: each timer one less but not below 0, the beep when ST = 1 before, nothing else, in any STATUS (60_exceptions.md R212). -/
def Obligations.TickCountsBothTimersDown : Prop :=
  ∀ s : State, s.loaded = true → ∃ t, transact .tickTimers s = .next t ∧
    t = { s with dt := t.dt, st := t.st, reply := .beep (decide (s.st.toNat = 1)) } ∧
    t.dt.toNat = s.dt.toNat - 1 ∧ t.st.toNat = s.st.toNat - 1

/-- Over any run of ticks and key changes, ST falls by one a tick down to 0, and the number of beeps is 1 when ST started above 0 and has reached 0, else 0 (60_exceptions.md R213; the one-bit reply is the spec's D28, the free interleaving its D27). -/
def Obligations.OneBeepPerCountdown : Prop :=
  ∀ (trs : List Transaction) (s t : State), s.loaded = true → transactAll trs s = .next t →
    (∀ tr ∈ trs, tr = .tickTimers ∨ ∃ index pressed, tr = .setKey index pressed) →
    (replies trs s).count (.beep true) = (if 0 < s.st.toNat ∧ t.st.toNat = 0 then 1 else 0) ∧
    t.st.toNat = s.st.toNat - trs.count .tickTimers

/-- `set_key`: the level of one key, or INVALID_ARGUMENT and no change, in any STATUS (60_exceptions.md R215; the error is the spec's D15). -/
def Obligations.SetKeyStoresLevel : Prop :=
  (∀ (s : State) (k : Fin 16) (pressed : Bool), s.loaded = true →
    ∃ t, transact (.setKey k.val pressed) s = .next t ∧ t = { s with keys := t.keys, reply := .ok } ∧
      t.keys[k.val] = pressed ∧ ∀ j : Fin 16, j ≠ k → t.keys[j.val] = s.keys[j.val]) ∧
  (∀ (s : State) (index : Nat) (pressed : Bool), s.loaded = true → 15 < index →
    transact (.setKey index pressed) s = .next { s with reply := .invalidArgument index })

/-- `load`: the bytes at 0x200 and above and nothing else, or LOAD_ERROR and no change above 3584 bytes (70_reset_and_hazards.md R242; the error is the spec's D13, the loaded flag the model's own, log 6). -/
def Obligations.LoadCopiesRom : Prop :=
  ∀ (s : State) (bytes : List Byte), s.loaded = false →
    (bytes.length ≤ 3584 → ∃ t, transact (.load bytes) s = .next t ∧
      t = { s with mem := t.mem, loaded := true, reply := .ok } ∧
      (∀ (j : Nat) (h : j < bytes.length), t.readByte (512 + j) = bytes[j]) ∧
      ∀ a : Nat, a < 512 ∨ 512 + bytes.length ≤ a → t.readByte a = s.readByte a) ∧
    (3584 < bytes.length → transact (.load bytes) s = .next { s with reply := .loadError bytes.length })

/-- `initialize` gives the reset state from any state, with the FONT of the machine's parameters, and State.reset reads the same (70_reset_and_hazards.md R240). -/
def Obligations.InitializeGivesResetState : Prop :=
  AtReset State.reset.config.font State.reset ∧
  ∀ s : State, ∃ t, transact .init s = .next t ∧ AtReset s.config.font t

/-! ### Rules of the whole machine -/

/-- Which instructions write which state: V0..VE only as a destination; PC only a jump, call, return, skip, the Fx0A rewind, or the rollback of a fatal error; I only Annn, Fx1E, Fx29; the stack only 2nnn and 00EE; DT only Fx15; ST only Fx18; memory only Fx33 and Fx55; the display only 00E0 and Dxyn; STATUS only a fatal error; keys, OPCODE, the parameters and the model's own rnd, draws and loaded none (10_state.md R20, R22 to R31, 20_memory.md R54, 41_display.md R122; VF is OnlyNamedInstructionsWriteFlag's; that Fx55 and Fx65 leave I is the spec's D7, the rollback its D2, the latch its D3, OPCODE kept its D25; log 3, 4, 6). -/
def Obligations.OnlyNamedInstructionsWrite : Prop :=
  ∀ (i : Instr) (s t : State), exec i s = .next t →
    (∀ r, r ≠ 15 → t.readV r ≠ s.readV r →
      (∃ kk, i = .ldImm r kk ∨ i = .addImm r kk ∨ i = .rnd r kk) ∨
      (∃ y, i = .orReg r y ∨ i = .andReg r y ∨ i = .xorReg r y) ∨
      (∃ y, i = .addReg r y ∨ i = .sub r y ∨ i = .subn r y) ∨ i = .shr r ∨ i = .shl r ∨
      i = .ldVDt r ∨ i = .ldVK r ∨ ∃ x, r ≤ x ∧ i = .ldVMem x) ∧
    (t.pc ≠ s.pc →
      i = .ret ∨ (∃ nnn, i = .jp nnn ∨ i = .call nnn ∨ i = .jpV0 nnn) ∨
      (∃ x kk, i = .seImm x kk ∨ i = .sneImm x kk) ∨ (∃ x y, i = .seReg x y ∨ i = .sneReg x y) ∨
      (∃ x, i = .skp x ∨ i = .sknp x ∨ i = .ldVK x) ∨ ∃ e, t.reply = .error e ∧ t.pc = s.pc - 2) ∧
    (t.pix ≠ s.pix → i = .cls ∨ ∃ x y n, i = .drw x y n) ∧
    (t.status ≠ s.status → ∃ e, t.reply = .error e ∧ t.status = .halted e.kind) ∧
    (t.i ≠ s.i → (∃ nnn, i = .ldI nnn) ∨ ∃ x, i = .addI x ∨ i = .ldF x) ∧
    (t.stack ≠ s.stack → ∃ nnn, i = .call nnn) ∧
    (t.sp ≠ s.sp → i = .ret ∨ ∃ nnn, i = .call nnn) ∧
    (t.dt ≠ s.dt → ∃ x, i = .ldDtV x) ∧
    (t.st ≠ s.st → ∃ x, i = .ldStV x) ∧
    (t.mem ≠ s.mem → ∃ x, i = .ldB x ∨ i = .ldMemV x) ∧
    t.keys = s.keys ∧ t.opcode = s.opcode ∧ t.config = s.config ∧ t.loaded = s.loaded ∧
    t.rnd = s.rnd ∧ t.draws = s.draws

/-- VF changes only by an instruction that writes it as a flag or names it as its destination (10_state.md R21; that Fx1E is not among them is the spec's D6). -/
def Obligations.OnlyNamedInstructionsWriteFlag : Prop :=
  ∀ (i : Instr) (s t : State), exec i s = .next t → t.readV 15 ≠ s.readV 15 →
    (∃ x y, i = .addReg x y ∨ i = .sub x y ∨ i = .subn x y) ∨ (∃ x, i = .shr x ∨ i = .shl x) ∨
    (∃ x y n, i = .drw x y n) ∨
    (∃ kk, i = .ldImm 15 kk ∨ i = .addImm 15 kk ∨ i = .rnd 15 kk) ∨
    (∃ y, i = .orReg 15 y ∨ i = .andReg 15 y ∨ i = .xorReg 15 y) ∨
    i = .ldVDt 15 ∨ i = .ldVK 15 ∨ i = .ldVMem 15

/-- No instruction reads OPCODE or ST, and only Cxkk reads rnd: changing them beforehand changes nothing else afterwards (10_state.md R26, R30, 40_step_cycle.md R110; rnd as an input is the spec's D16). -/
def Obligations.UnreadStateDoesNotInfluence : Prop :=
  ∀ (i : Instr) (s : State),
    (∀ w : Word, exec i { s with opcode := w } = mapNext (fun t => { t with opcode := w }) (exec i s)) ∧
    (∀ b : Byte, (∀ x, i ≠ .ldStV x) →
      exec i { s with st := b } = mapNext (fun t => { t with st := b }) (exec i s)) ∧
    (∀ b : Byte, (∀ x kk, i ≠ .rnd x kk) →
      exec i { s with rnd := b } = mapNext (fun t => { t with rnd := b }) (exec i s))

/-- In a HALTED machine no transaction but `initialize` changes anything but the keys and the timers: STATUS stays (10_state.md R31, 60_exceptions.md R210, the spec's D3 and D21). -/
def Obligations.HaltedUntilInitialize : Prop :=
  ∀ (tr : Transaction) (s t : State) (k : HaltKind), s.loaded = true → s.status = .halted k →
    transact tr s = .next t → tr ≠ .init →
    t = { s with keys := t.keys, dt := t.dt, st := t.st, reply := t.reply } ∧
    ((∀ index pressed, tr ≠ .setKey index pressed) → t.keys = s.keys) ∧
    (tr ≠ .tickTimers → t.dt = s.dt ∧ t.st = s.st)

/-- No transaction changes the parameters, `initialize` included: DECODE_ERROR_POLICY and FONT are fixed for the machine (00_scope.md R6; that State carries them is the model's own, log 4). -/
def Obligations.ParametersNeverChange : Prop :=
  ∀ (trs : List Transaction) (s t : State), transactAll trs s = .next t → t.config = s.config

/-! ### Invariants -/

/-- The invariant holds after reset, whatever the parameters (10_state.md R33; the memory form is the model's own, log 8). -/
def Obligations.ResetMeetsInvariant : Prop :=
  Inv State.reset ∧ ∀ c : Config, Inv (State.resetWith c)

/-- Every step keeps the invariant: memory canonical, HALTED(DECODE_ERROR) only under HALT, PC at most 0x10FE, stack entries at most 0x1000 (10_state.md R23, R31; R23's bound is the spec's own derivation; the memory form is the model's own, log 8). -/
def Obligations.StepKeepsInvariant : Prop :=
  ∀ s t : State, Inv s → step s = .next t → Inv t

/-- Every sequence of transactions keeps the invariant, so every interleaving the host can choose (70_reset_and_hazards.md R249, the spec's D27; 10_state.md R23, R31; R23's bound is the spec's own derivation; the memory form is the model's own, log 8). -/
def Obligations.TransactionSequencesKeepInvariant : Prop :=
  ∀ (trs : List Transaction) (s t : State), Inv s → transactAll trs s = .next t → Inv t

/-- A word placed where step fetches is the instruction step runs, big-endian in memory (20_memory.md R55; the placing is the model's own, log 7). -/
def Obligations.PlacedWordRunsNext : Prop :=
  ∀ (s : State) (w : Nat) (i : Instr), w < 65536 → decodeTableWord 16 w = some i →
    decodeWord (BitVec.ofNat 16 w) = .instr i ∧
    step (s.withFetchWord 16 w) =
      exec i { s.withFetchWord 16 w with
        opcode := BitVec.ofNat 16 w, pc := (s.withFetchWord 16 w).pc + 2,
        rnd := Config.rndByte s.draws, draws := s.draws + 1 }
end

