-- ==== Sys2Proof/Laws/Decode.lean ====
section
/-! SUPPORT. The fields of packed words, and masks as fields: what the round trip and the opcode table rest on. -/

namespace Sys2Proof

theorem word_lt (w : Word) : w.toNat < 65536 := w.isLt

@[simp] theorem bits_op (w : Word) : bits w 15 12 = w.toNat / 4096 := by
  have := word_lt w
  simp only [bits]; omega

theorem bits_x (w : Word) : bits w 11 8 = w.toNat / 256 % 16 := rfl
theorem bits_y (w : Word) : bits w 7 4 = w.toNat / 16 % 16 := rfl
theorem bits_n (w : Word) : bits w 3 0 = w.toNat % 16 := by simp [bits]
theorem bits_kk (w : Word) : bits w 7 0 = w.toNat % 256 := by simp [bits]
theorem bits_nnn (w : Word) : bits w 11 0 = w.toNat % 4096 := by simp [bits]

theorem fieldX_val (w : Word) : (fieldX w).val = w.toNat / 256 % 16 := by
  simp [fieldX, bits_x]

theorem fieldY_val (w : Word) : (fieldY w).val = w.toNat / 16 % 16 := by
  simp [fieldY, bits_y]

theorem fieldKk_toNat (w : Word) : (fieldKk w).toNat = w.toNat % 256 := by
  simp [fieldKk, bits_kk]

theorem fieldNnn_toNat (w : Word) : (fieldNnn w).toNat = w.toNat % 4096 := by
  simp [fieldNnn, bits_nnn]

/-! ### The words the encoder packs -/

theorem packNibbles_toNat {op x y n : Nat} (h1 : op < 16) (h2 : x < 16) (h3 : y < 16) (h4 : n < 16) :
    (packNibbles op x y n).toNat = op * 4096 + x * 256 + y * 16 + n := by
  simp only [packNibbles, BitVec.toNat_ofNat]; omega

theorem packKk_toNat {op : Nat} (x : Reg) {kk : Nat} (h1 : op < 16) (h2 : kk < 256) :
    (packKk op x kk).toNat = op * 4096 + x.val * 256 + kk := by
  have := x.isLt
  simp only [packKk, BitVec.toNat_ofNat]; omega

theorem packNnn_toNat {op : Nat} (nnn : Addr12) (h1 : op < 16) :
    (packNnn op nnn).toNat = op * 4096 + nnn.toNat := by
  have := nnn.isLt
  simp only [packNnn, BitVec.toNat_ofNat]; omega

/-! ### Masks as fields -/

theorem and_pow_mul (n k j : Nat) : n &&& ((2 ^ j - 1) * 2 ^ k) = n / 2 ^ k % 2 ^ j * 2 ^ k := by
  apply Nat.eq_of_testBit_eq
  intro i
  rw [Nat.testBit_and, Nat.testBit_mul_two_pow, Nat.testBit_mul_two_pow, Nat.testBit_two_pow_sub_one,
    Nat.testBit_mod_two_pow, Nat.testBit_div_two_pow]
  by_cases h : k ≤ i
  · simp [h, Bool.and_comm]
  · simp [h]

theorem and_F000_toNat (w : Word) : (w &&& 0xF000).toNat = w.toNat / 4096 * 4096 := by
  have h := and_pow_mul w.toNat 12 4
  have hw := word_lt w
  norm_num at h
  rw [BitVec.toNat_and, show (0xF000 : Word).toNat = 61440 from rfl, h]
  omega

theorem and_FF00_toNat (w : Word) : (w &&& 0xFF00).toNat = w.toNat / 256 * 256 := by
  have h := and_pow_mul w.toNat 8 8
  have hw := word_lt w
  norm_num at h
  rw [BitVec.toNat_and, show (0xFF00 : Word).toNat = 65280 from rfl, h]
  omega

theorem and_000F_toNat (w : Word) : (w &&& 0x000F).toNat = w.toNat % 16 := by
  have h := and_pow_mul w.toNat 0 4
  norm_num at h
  rw [BitVec.toNat_and, show (0x000F : Word).toNat = 15 from rfl, h]

theorem and_00FF_toNat (w : Word) : (w &&& 0x00FF).toNat = w.toNat % 256 := by
  have h := and_pow_mul w.toNat 0 8
  norm_num at h
  rw [BitVec.toNat_and, show (0x00FF : Word).toNat = 255 from rfl, h]

/-- The number of a disjunction whose parts share no bit. -/
theorem or_toNat_of_parts {a b : Word} {k q : Nat} (ha : a.toNat = q * 2 ^ k) (hb : b.toNat < 2 ^ k) :
    (a ||| b).toNat = a.toNat + b.toNat := by
  rw [BitVec.toNat_or, ha, Nat.mul_comm, Nat.two_pow_add_eq_or_of_lt hb]

/-- First and last nibble. -/
theorem and_F00F_toNat (w : Word) : (w &&& 0xF00F).toNat = w.toNat / 4096 * 4096 + w.toNat % 16 := by
  rw [show (0xF00F : Word) = 0xF000 ||| 0x000F from rfl, BitVec.and_or_distrib_left,
    or_toNat_of_parts (k := 12) (and_F000_toNat w) (by rw [and_000F_toNat]; omega), and_F000_toNat, and_000F_toNat]

/-- First nibble and last byte. -/
theorem and_F0FF_toNat (w : Word) : (w &&& 0xF0FF).toNat = w.toNat / 4096 * 4096 + w.toNat % 256 := by
  rw [show (0xF0FF : Word) = 0xF000 ||| 0x00FF from rfl, BitVec.and_or_distrib_left,
    or_toNat_of_parts (k := 12) (and_F000_toNat w) (by rw [and_00FF_toNat]; omega), and_F000_toNat, and_00FF_toNat]

/-- All but the y nibble. -/
theorem and_FF0F_toNat (w : Word) : (w &&& 0xFF0F).toNat = w.toNat / 256 * 256 + w.toNat % 16 := by
  rw [show (0xFF0F : Word) = 0xFF00 ||| 0x000F from rfl, BitVec.and_or_distrib_left,
    or_toNat_of_parts (k := 8) (and_FF00_toNat w) (by rw [and_000F_toNat]; omega), and_FF00_toNat, and_000F_toNat]

theorem and_FFFF (w : Word) : w &&& 0xFFFF = w := by
  rw [show (0xFFFF : Word) = BitVec.allOnes 16 from rfl, BitVec.and_allOnes]

/-- The fixed bits of a row with a fixed first nibble. -/
theorem fixed_F000 {w : Word} {p : Word} (h : w &&& 0xF000 = p) : w.toNat / 4096 * 4096 = p.toNat := by
  rw [← and_F000_toNat, h]

/-- The fixed bits of a row with a fixed first and last nibble. -/
theorem fixed_F00F {w : Word} {p : Word} (h : w &&& 0xF00F = p) :
    w.toNat / 4096 * 4096 + w.toNat % 16 = p.toNat := by
  rw [← and_F00F_toNat, h]

/-- The fixed bits of a row with a fixed first nibble and last byte. -/
theorem fixed_F0FF {w : Word} {p : Word} (h : w &&& 0xF0FF = p) :
    w.toNat / 4096 * 4096 + w.toNat % 256 = p.toNat := by
  rw [← and_F0FF_toNat, h]

/-! ### Bytes and words -/

theorem wordOfBytes_toNat (hi lo : Byte) : (wordOfBytes hi lo).toNat = hi.toNat * 256 + lo.toNat := by
  have hl := lo.isLt
  unfold wordOfBytes
  rw [BitVec.toNat_append, ← Nat.shiftLeft_add_eq_or_of_lt hl, Nat.shiftLeft_eq]

/-- A word is the word of its two bytes (20_memory.md R55). -/
theorem wordOfBytes_bytes (w : Word) : wordOfBytes (highByte w) (lowByte w) = w := by
  apply BitVec.eq_of_toNat_eq
  have := word_lt w
  rw [wordOfBytes_toNat]
  simp only [highByte, lowByte, bits, BitVec.toNat_ofNat]
  omega

end Sys2Proof
end

