-- ==== Sys2Proof/Laws/DecodeRows.lean ====
section
/-! SUPPORT. What the decoder answers on the words of each row of the opcode table, by their nibbles (spec/30_encoding.md R73), and what a word it accepts must look like. -/

namespace Sys2Proof

theorem fieldOp_eq (w : Word) : fieldOp w = w.toNat / 4096 := bits_op w

theorem fieldN_eq (w : Word) : fieldN w = w.toNat % 16 := bits_n w

theorem fieldX_eq {w : Word} {x : Reg} (h : w.toNat / 256 % 16 = x.val) : fieldX w = x :=
  Fin.ext (by rw [fieldX_val, h])

theorem fieldY_eq {w : Word} {y : Reg} (h : w.toNat / 16 % 16 = y.val) : fieldY w = y :=
  Fin.ext (by rw [fieldY_val, h])

theorem fieldKk_eq {w : Word} {kk : Byte} (h : w.toNat % 256 = kk.toNat) : fieldKk w = kk :=
  BitVec.eq_of_toNat_eq (by rw [fieldKk_toNat, h])

theorem fieldNnn_eq {w : Word} {nnn : Addr12} (h : w.toNat % 4096 = nnn.toNat) : fieldNnn w = nnn :=
  BitVec.eq_of_toNat_eq (by rw [fieldNnn_toNat, h])

variable {w : Word}

theorem decodeWord_jp (h : w.toNat / 4096 = 0x1) : decodeWord w = .instr (.jp (fieldNnn w)) := by
  unfold decodeWord; rw [fieldOp_eq, h]; rfl

theorem decodeWord_call (h : w.toNat / 4096 = 0x2) : decodeWord w = .instr (.call (fieldNnn w)) := by
  unfold decodeWord; rw [fieldOp_eq, h]; rfl

theorem decodeWord_seImm (h : w.toNat / 4096 = 0x3) :
    decodeWord w = .instr (.seImm (fieldX w) (fieldKk w)) := by
  unfold decodeWord; rw [fieldOp_eq, h]; rfl

theorem decodeWord_sneImm (h : w.toNat / 4096 = 0x4) :
    decodeWord w = .instr (.sneImm (fieldX w) (fieldKk w)) := by
  unfold decodeWord; rw [fieldOp_eq, h]; rfl

theorem decodeWord_seReg (h : w.toNat / 4096 = 0x5) (hn : w.toNat % 16 = 0x0) :
    decodeWord w = .instr (.seReg (fieldX w) (fieldY w)) := by
  unfold decodeWord; rw [fieldOp_eq, h]; simp [decodeFive, fieldN_eq, hn]

theorem decodeWord_ldImm (h : w.toNat / 4096 = 0x6) :
    decodeWord w = .instr (.ldImm (fieldX w) (fieldKk w)) := by
  unfold decodeWord; rw [fieldOp_eq, h]; rfl

theorem decodeWord_addImm (h : w.toNat / 4096 = 0x7) :
    decodeWord w = .instr (.addImm (fieldX w) (fieldKk w)) := by
  unfold decodeWord; rw [fieldOp_eq, h]; rfl

theorem decodeWord_orReg (h : w.toNat / 4096 = 0x8) (hn : w.toNat % 16 = 0x1) :
    decodeWord w = .instr (.orReg (fieldX w) (fieldY w)) := by
  unfold decodeWord; rw [fieldOp_eq, h]; simp only [decodeEight, fieldN_eq, hn]

theorem decodeWord_andReg (h : w.toNat / 4096 = 0x8) (hn : w.toNat % 16 = 0x2) :
    decodeWord w = .instr (.andReg (fieldX w) (fieldY w)) := by
  unfold decodeWord; rw [fieldOp_eq, h]; simp only [decodeEight, fieldN_eq, hn]

theorem decodeWord_xorReg (h : w.toNat / 4096 = 0x8) (hn : w.toNat % 16 = 0x3) :
    decodeWord w = .instr (.xorReg (fieldX w) (fieldY w)) := by
  unfold decodeWord; rw [fieldOp_eq, h]; simp only [decodeEight, fieldN_eq, hn]

theorem decodeWord_addReg (h : w.toNat / 4096 = 0x8) (hn : w.toNat % 16 = 0x4) :
    decodeWord w = .instr (.addReg (fieldX w) (fieldY w)) := by
  unfold decodeWord; rw [fieldOp_eq, h]; simp only [decodeEight, fieldN_eq, hn]

theorem decodeWord_sub (h : w.toNat / 4096 = 0x8) (hn : w.toNat % 16 = 0x5) :
    decodeWord w = .instr (.sub (fieldX w) (fieldY w)) := by
  unfold decodeWord; rw [fieldOp_eq, h]; simp only [decodeEight, fieldN_eq, hn]

theorem decodeWord_shr (h : w.toNat / 4096 = 0x8) (hn : w.toNat % 16 = 0x6) :
    decodeWord w = .instr (.shr (fieldX w)) := by
  unfold decodeWord; rw [fieldOp_eq, h]; simp only [decodeEight, fieldN_eq, hn]

theorem decodeWord_subn (h : w.toNat / 4096 = 0x8) (hn : w.toNat % 16 = 0x7) :
    decodeWord w = .instr (.subn (fieldX w) (fieldY w)) := by
  unfold decodeWord; rw [fieldOp_eq, h]; simp only [decodeEight, fieldN_eq, hn]

theorem decodeWord_shl (h : w.toNat / 4096 = 0x8) (hn : w.toNat % 16 = 0xE) :
    decodeWord w = .instr (.shl (fieldX w)) := by
  unfold decodeWord; rw [fieldOp_eq, h]; simp only [decodeEight, fieldN_eq, hn]

theorem decodeWord_sneReg (h : w.toNat / 4096 = 0x9) (hn : w.toNat % 16 = 0x0) :
    decodeWord w = .instr (.sneReg (fieldX w) (fieldY w)) := by
  unfold decodeWord; rw [fieldOp_eq, h]; simp [decodeNine, fieldN_eq, hn]

theorem decodeWord_ldI (h : w.toNat / 4096 = 0xA) : decodeWord w = .instr (.ldI (fieldNnn w)) := by
  unfold decodeWord; rw [fieldOp_eq, h]; rfl

theorem decodeWord_jpV0 (h : w.toNat / 4096 = 0xB) : decodeWord w = .instr (.jpV0 (fieldNnn w)) := by
  unfold decodeWord; rw [fieldOp_eq, h]; rfl

theorem decodeWord_rnd (h : w.toNat / 4096 = 0xC) :
    decodeWord w = .instr (.rnd (fieldX w) (fieldKk w)) := by
  unfold decodeWord; rw [fieldOp_eq, h]; rfl

theorem decodeWord_drw (h : w.toNat / 4096 = 0xD) :
    decodeWord w = .instr (.drw (fieldX w) (fieldY w) (fieldN w)) := by
  unfold decodeWord; rw [fieldOp_eq, h]; rfl

theorem decodeWord_skp (h : w.toNat / 4096 = 0xE) (hb : w.toNat % 256 = 0x9E) :
    decodeWord w = .instr (.skp (fieldX w)) := by
  unfold decodeWord; rw [fieldOp_eq, h]; simp only [decodeE, bits_kk, hb]

theorem decodeWord_sknp (h : w.toNat / 4096 = 0xE) (hb : w.toNat % 256 = 0xA1) :
    decodeWord w = .instr (.sknp (fieldX w)) := by
  unfold decodeWord; rw [fieldOp_eq, h]; simp only [decodeE, bits_kk, hb]

theorem decodeWord_ldVDt (h : w.toNat / 4096 = 0xF) (hb : w.toNat % 256 = 0x07) :
    decodeWord w = .instr (.ldVDt (fieldX w)) := by
  unfold decodeWord; rw [fieldOp_eq, h]; simp only [decodeF, bits_kk, hb]

theorem decodeWord_ldVK (h : w.toNat / 4096 = 0xF) (hb : w.toNat % 256 = 0x0A) :
    decodeWord w = .instr (.ldVK (fieldX w)) := by
  unfold decodeWord; rw [fieldOp_eq, h]; simp only [decodeF, bits_kk, hb]

theorem decodeWord_ldDtV (h : w.toNat / 4096 = 0xF) (hb : w.toNat % 256 = 0x15) :
    decodeWord w = .instr (.ldDtV (fieldX w)) := by
  unfold decodeWord; rw [fieldOp_eq, h]; simp only [decodeF, bits_kk, hb]

theorem decodeWord_ldStV (h : w.toNat / 4096 = 0xF) (hb : w.toNat % 256 = 0x18) :
    decodeWord w = .instr (.ldStV (fieldX w)) := by
  unfold decodeWord; rw [fieldOp_eq, h]; simp only [decodeF, bits_kk, hb]

theorem decodeWord_addI (h : w.toNat / 4096 = 0xF) (hb : w.toNat % 256 = 0x1E) :
    decodeWord w = .instr (.addI (fieldX w)) := by
  unfold decodeWord; rw [fieldOp_eq, h]; simp only [decodeF, bits_kk, hb]

theorem decodeWord_ldF (h : w.toNat / 4096 = 0xF) (hb : w.toNat % 256 = 0x29) :
    decodeWord w = .instr (.ldF (fieldX w)) := by
  unfold decodeWord; rw [fieldOp_eq, h]; simp only [decodeF, bits_kk, hb]

theorem decodeWord_ldB (h : w.toNat / 4096 = 0xF) (hb : w.toNat % 256 = 0x33) :
    decodeWord w = .instr (.ldB (fieldX w)) := by
  unfold decodeWord; rw [fieldOp_eq, h]; simp only [decodeF, bits_kk, hb]

theorem decodeWord_ldMemV (h : w.toNat / 4096 = 0xF) (hb : w.toNat % 256 = 0x55) :
    decodeWord w = .instr (.ldMemV (fieldX w)) := by
  unfold decodeWord; rw [fieldOp_eq, h]; simp only [decodeF, bits_kk, hb]

theorem decodeWord_ldVMem (h : w.toNat / 4096 = 0xF) (hb : w.toNat % 256 = 0x65) :
    decodeWord w = .instr (.ldVMem (fieldX w)) := by
  unfold decodeWord; rw [fieldOp_eq, h]; simp only [decodeF, bits_kk, hb]

/-- A word the decoder accepts, by the instruction it accepts it as: its fixed nibbles and its fields. -/
theorem decodeWord_inv {i : Instr} (h : decodeWord w = .instr i) :
    match i with
    | .cls => w.toNat = 0x00E0
    | .ret => w.toNat = 0x00EE
    | .jp nnn => w.toNat / 4096 = 0x1 ∧ nnn = fieldNnn w
    | .call nnn => w.toNat / 4096 = 0x2 ∧ nnn = fieldNnn w
    | .seImm x kk => w.toNat / 4096 = 0x3 ∧ x = fieldX w ∧ kk = fieldKk w
    | .sneImm x kk => w.toNat / 4096 = 0x4 ∧ x = fieldX w ∧ kk = fieldKk w
    | .seReg x y => w.toNat / 4096 = 0x5 ∧ w.toNat % 16 = 0x0 ∧ x = fieldX w ∧ y = fieldY w
    | .ldImm x kk => w.toNat / 4096 = 0x6 ∧ x = fieldX w ∧ kk = fieldKk w
    | .addImm x kk => w.toNat / 4096 = 0x7 ∧ x = fieldX w ∧ kk = fieldKk w
    | .orReg x y => w.toNat / 4096 = 0x8 ∧ w.toNat % 16 = 0x1 ∧ x = fieldX w ∧ y = fieldY w
    | .andReg x y => w.toNat / 4096 = 0x8 ∧ w.toNat % 16 = 0x2 ∧ x = fieldX w ∧ y = fieldY w
    | .xorReg x y => w.toNat / 4096 = 0x8 ∧ w.toNat % 16 = 0x3 ∧ x = fieldX w ∧ y = fieldY w
    | .addReg x y => w.toNat / 4096 = 0x8 ∧ w.toNat % 16 = 0x4 ∧ x = fieldX w ∧ y = fieldY w
    | .sub x y => w.toNat / 4096 = 0x8 ∧ w.toNat % 16 = 0x5 ∧ x = fieldX w ∧ y = fieldY w
    | .shr x => w.toNat / 4096 = 0x8 ∧ w.toNat % 16 = 0x6 ∧ x = fieldX w
    | .subn x y => w.toNat / 4096 = 0x8 ∧ w.toNat % 16 = 0x7 ∧ x = fieldX w ∧ y = fieldY w
    | .shl x => w.toNat / 4096 = 0x8 ∧ w.toNat % 16 = 0xE ∧ x = fieldX w
    | .sneReg x y => w.toNat / 4096 = 0x9 ∧ w.toNat % 16 = 0x0 ∧ x = fieldX w ∧ y = fieldY w
    | .ldI nnn => w.toNat / 4096 = 0xA ∧ nnn = fieldNnn w
    | .jpV0 nnn => w.toNat / 4096 = 0xB ∧ nnn = fieldNnn w
    | .rnd x kk => w.toNat / 4096 = 0xC ∧ x = fieldX w ∧ kk = fieldKk w
    | .drw x y n => w.toNat / 4096 = 0xD ∧ x = fieldX w ∧ y = fieldY w ∧ n = fieldN w
    | .skp x => w.toNat / 4096 = 0xE ∧ w.toNat % 256 = 0x9E ∧ x = fieldX w
    | .sknp x => w.toNat / 4096 = 0xE ∧ w.toNat % 256 = 0xA1 ∧ x = fieldX w
    | .ldVDt x => w.toNat / 4096 = 0xF ∧ w.toNat % 256 = 0x07 ∧ x = fieldX w
    | .ldVK x => w.toNat / 4096 = 0xF ∧ w.toNat % 256 = 0x0A ∧ x = fieldX w
    | .ldDtV x => w.toNat / 4096 = 0xF ∧ w.toNat % 256 = 0x15 ∧ x = fieldX w
    | .ldStV x => w.toNat / 4096 = 0xF ∧ w.toNat % 256 = 0x18 ∧ x = fieldX w
    | .addI x => w.toNat / 4096 = 0xF ∧ w.toNat % 256 = 0x1E ∧ x = fieldX w
    | .ldF x => w.toNat / 4096 = 0xF ∧ w.toNat % 256 = 0x29 ∧ x = fieldX w
    | .ldB x => w.toNat / 4096 = 0xF ∧ w.toNat % 256 = 0x33 ∧ x = fieldX w
    | .ldMemV x => w.toNat / 4096 = 0xF ∧ w.toNat % 256 = 0x55 ∧ x = fieldX w
    | .ldVMem x => w.toNat / 4096 = 0xF ∧ w.toNat % 256 = 0x65 ∧ x = fieldX w := by
  have hw := word_lt w
  unfold decodeWord at h
  rw [fieldOp_eq] at h
  split at h
  all_goals (try (cases h; exact ⟨‹_›, rfl⟩))
  all_goals (try (cases h; exact ⟨‹_›, rfl, rfl⟩))
  all_goals (try (cases h; exact ⟨‹_›, rfl, rfl, rfl⟩))
  · unfold decodeZero at h
    split at h
    · cases h; assumption
    · split at h
      · cases h; assumption
      · cases h
  · unfold decodeFive at h
    rw [fieldN_eq] at h
    split at h
    · cases h; exact ⟨‹_›, ‹_›, rfl, rfl⟩
    · cases h
  · unfold decodeEight at h
    rw [fieldN_eq] at h
    split at h
    all_goals first
      | (cases h; exact ⟨‹_›, ‹_›, rfl, rfl⟩)
      | (cases h; exact ⟨‹_›, ‹_›, rfl⟩)
      | cases h
  · unfold decodeNine at h
    rw [fieldN_eq] at h
    split at h
    · cases h; exact ⟨‹_›, ‹_›, rfl, rfl⟩
    · cases h
  · unfold decodeE at h
    rw [bits_kk] at h
    split at h
    all_goals first
      | (cases h; exact ⟨‹_›, ‹_›, rfl⟩)
      | cases h
  · have hF : w.toNat / 4096 = 0xF := by
      have h0 := Nat.div_lt_of_lt_mul (show w.toNat < 4096 * 16 by omega)
      interval_cases hq : w.toNat / 4096 <;> simp_all
    unfold decodeF at h
    rw [bits_kk] at h
    split at h
    all_goals first
      | (cases h; exact ⟨hF, ‹_›, rfl⟩)
      | cases h

end Sys2Proof
end

