-- ==== Sys2Proof/Laws/State.lean ====
section
/-! SUPPORT. One lemma per field per update of State, each true by rfl, so that no proof unfolds a record update. -/

namespace Sys2Proof.Machine

variable (s : State)

/-! ### State.writeV -/

@[simp] theorem State.writeV_config (r : Reg) (b : Byte) : (s.writeV r b).config = s.config := rfl
@[simp] theorem State.writeV_v (r : Reg) (b : Byte) : (s.writeV r b).v = s.v.set r.val b := rfl
@[simp] theorem State.writeV_i (r : Reg) (b : Byte) : (s.writeV r b).i = s.i := rfl
@[simp] theorem State.writeV_pc (r : Reg) (b : Byte) : (s.writeV r b).pc = s.pc := rfl
@[simp] theorem State.writeV_stack (r : Reg) (b : Byte) : (s.writeV r b).stack = s.stack := rfl
@[simp] theorem State.writeV_sp (r : Reg) (b : Byte) : (s.writeV r b).sp = s.sp := rfl
@[simp] theorem State.writeV_dt (r : Reg) (b : Byte) : (s.writeV r b).dt = s.dt := rfl
@[simp] theorem State.writeV_st (r : Reg) (b : Byte) : (s.writeV r b).st = s.st := rfl
@[simp] theorem State.writeV_mem (r : Reg) (b : Byte) : (s.writeV r b).mem = s.mem := rfl
@[simp] theorem State.writeV_pix (r : Reg) (b : Byte) : (s.writeV r b).pix = s.pix := rfl
@[simp] theorem State.writeV_keys (r : Reg) (b : Byte) : (s.writeV r b).keys = s.keys := rfl
@[simp] theorem State.writeV_opcode (r : Reg) (b : Byte) : (s.writeV r b).opcode = s.opcode := rfl
@[simp] theorem State.writeV_status (r : Reg) (b : Byte) : (s.writeV r b).status = s.status := rfl
@[simp] theorem State.writeV_loaded (r : Reg) (b : Byte) : (s.writeV r b).loaded = s.loaded := rfl
@[simp] theorem State.writeV_reply (r : Reg) (b : Byte) : (s.writeV r b).reply = s.reply := rfl
@[simp] theorem State.writeV_rnd (r : Reg) (b : Byte) : (s.writeV r b).rnd = s.rnd := rfl
@[simp] theorem State.writeV_draws (r : Reg) (b : Byte) : (s.writeV r b).draws = s.draws := rfl

/-! ### State.writeFlag -/

@[simp] theorem State.writeFlag_config (b : Bool) : (s.writeFlag b).config = s.config := rfl
@[simp] theorem State.writeFlag_v (b : Bool) : (s.writeFlag b).v = s.v.set flagReg.val (flagByte b) := rfl
@[simp] theorem State.writeFlag_i (b : Bool) : (s.writeFlag b).i = s.i := rfl
@[simp] theorem State.writeFlag_pc (b : Bool) : (s.writeFlag b).pc = s.pc := rfl
@[simp] theorem State.writeFlag_stack (b : Bool) : (s.writeFlag b).stack = s.stack := rfl
@[simp] theorem State.writeFlag_sp (b : Bool) : (s.writeFlag b).sp = s.sp := rfl
@[simp] theorem State.writeFlag_dt (b : Bool) : (s.writeFlag b).dt = s.dt := rfl
@[simp] theorem State.writeFlag_st (b : Bool) : (s.writeFlag b).st = s.st := rfl
@[simp] theorem State.writeFlag_mem (b : Bool) : (s.writeFlag b).mem = s.mem := rfl
@[simp] theorem State.writeFlag_pix (b : Bool) : (s.writeFlag b).pix = s.pix := rfl
@[simp] theorem State.writeFlag_keys (b : Bool) : (s.writeFlag b).keys = s.keys := rfl
@[simp] theorem State.writeFlag_opcode (b : Bool) : (s.writeFlag b).opcode = s.opcode := rfl
@[simp] theorem State.writeFlag_status (b : Bool) : (s.writeFlag b).status = s.status := rfl
@[simp] theorem State.writeFlag_loaded (b : Bool) : (s.writeFlag b).loaded = s.loaded := rfl
@[simp] theorem State.writeFlag_reply (b : Bool) : (s.writeFlag b).reply = s.reply := rfl
@[simp] theorem State.writeFlag_rnd (b : Bool) : (s.writeFlag b).rnd = s.rnd := rfl
@[simp] theorem State.writeFlag_draws (b : Bool) : (s.writeFlag b).draws = s.draws := rfl

/-! ### State.writeResultThenFlag -/

@[simp] theorem State.writeResultThenFlag_config (x : Reg) (r : Byte) (b : Bool) : (s.writeResultThenFlag x r b).config = s.config := rfl
@[simp] theorem State.writeResultThenFlag_v (x : Reg) (r : Byte) (b : Bool) : (s.writeResultThenFlag x r b).v = (s.v.set x.val r).set flagReg.val (flagByte b) := rfl
@[simp] theorem State.writeResultThenFlag_i (x : Reg) (r : Byte) (b : Bool) : (s.writeResultThenFlag x r b).i = s.i := rfl
@[simp] theorem State.writeResultThenFlag_pc (x : Reg) (r : Byte) (b : Bool) : (s.writeResultThenFlag x r b).pc = s.pc := rfl
@[simp] theorem State.writeResultThenFlag_stack (x : Reg) (r : Byte) (b : Bool) : (s.writeResultThenFlag x r b).stack = s.stack := rfl
@[simp] theorem State.writeResultThenFlag_sp (x : Reg) (r : Byte) (b : Bool) : (s.writeResultThenFlag x r b).sp = s.sp := rfl
@[simp] theorem State.writeResultThenFlag_dt (x : Reg) (r : Byte) (b : Bool) : (s.writeResultThenFlag x r b).dt = s.dt := rfl
@[simp] theorem State.writeResultThenFlag_st (x : Reg) (r : Byte) (b : Bool) : (s.writeResultThenFlag x r b).st = s.st := rfl
@[simp] theorem State.writeResultThenFlag_mem (x : Reg) (r : Byte) (b : Bool) : (s.writeResultThenFlag x r b).mem = s.mem := rfl
@[simp] theorem State.writeResultThenFlag_pix (x : Reg) (r : Byte) (b : Bool) : (s.writeResultThenFlag x r b).pix = s.pix := rfl
@[simp] theorem State.writeResultThenFlag_keys (x : Reg) (r : Byte) (b : Bool) : (s.writeResultThenFlag x r b).keys = s.keys := rfl
@[simp] theorem State.writeResultThenFlag_opcode (x : Reg) (r : Byte) (b : Bool) : (s.writeResultThenFlag x r b).opcode = s.opcode := rfl
@[simp] theorem State.writeResultThenFlag_status (x : Reg) (r : Byte) (b : Bool) : (s.writeResultThenFlag x r b).status = s.status := rfl
@[simp] theorem State.writeResultThenFlag_loaded (x : Reg) (r : Byte) (b : Bool) : (s.writeResultThenFlag x r b).loaded = s.loaded := rfl
@[simp] theorem State.writeResultThenFlag_reply (x : Reg) (r : Byte) (b : Bool) : (s.writeResultThenFlag x r b).reply = s.reply := rfl
@[simp] theorem State.writeResultThenFlag_rnd (x : Reg) (r : Byte) (b : Bool) : (s.writeResultThenFlag x r b).rnd = s.rnd := rfl
@[simp] theorem State.writeResultThenFlag_draws (x : Reg) (r : Byte) (b : Bool) : (s.writeResultThenFlag x r b).draws = s.draws := rfl

/-! ### State.writeByte -/

@[simp] theorem State.writeByte_config (a : Nat) (b : Byte) : (s.writeByte a b).config = s.config := rfl
@[simp] theorem State.writeByte_v (a : Nat) (b : Byte) : (s.writeByte a b).v = s.v := rfl
@[simp] theorem State.writeByte_i (a : Nat) (b : Byte) : (s.writeByte a b).i = s.i := rfl
@[simp] theorem State.writeByte_pc (a : Nat) (b : Byte) : (s.writeByte a b).pc = s.pc := rfl
@[simp] theorem State.writeByte_stack (a : Nat) (b : Byte) : (s.writeByte a b).stack = s.stack := rfl
@[simp] theorem State.writeByte_sp (a : Nat) (b : Byte) : (s.writeByte a b).sp = s.sp := rfl
@[simp] theorem State.writeByte_dt (a : Nat) (b : Byte) : (s.writeByte a b).dt = s.dt := rfl
@[simp] theorem State.writeByte_st (a : Nat) (b : Byte) : (s.writeByte a b).st = s.st := rfl
@[simp] theorem State.writeByte_mem (a : Nat) (b : Byte) : (s.writeByte a b).mem = Memory.put s.config.font s.mem a b := rfl
@[simp] theorem State.writeByte_pix (a : Nat) (b : Byte) : (s.writeByte a b).pix = s.pix := rfl
@[simp] theorem State.writeByte_keys (a : Nat) (b : Byte) : (s.writeByte a b).keys = s.keys := rfl
@[simp] theorem State.writeByte_opcode (a : Nat) (b : Byte) : (s.writeByte a b).opcode = s.opcode := rfl
@[simp] theorem State.writeByte_status (a : Nat) (b : Byte) : (s.writeByte a b).status = s.status := rfl
@[simp] theorem State.writeByte_loaded (a : Nat) (b : Byte) : (s.writeByte a b).loaded = s.loaded := rfl
@[simp] theorem State.writeByte_reply (a : Nat) (b : Byte) : (s.writeByte a b).reply = s.reply := rfl
@[simp] theorem State.writeByte_rnd (a : Nat) (b : Byte) : (s.writeByte a b).rnd = s.rnd := rfl
@[simp] theorem State.writeByte_draws (a : Nat) (b : Byte) : (s.writeByte a b).draws = s.draws := rfl

/-! ### State.jump -/

@[simp] theorem State.jump_config (w : Word) : (s.jump w).config = s.config := rfl
@[simp] theorem State.jump_v (w : Word) : (s.jump w).v = s.v := rfl
@[simp] theorem State.jump_i (w : Word) : (s.jump w).i = s.i := rfl
@[simp] theorem State.jump_pc (w : Word) : (s.jump w).pc = w := rfl
@[simp] theorem State.jump_stack (w : Word) : (s.jump w).stack = s.stack := rfl
@[simp] theorem State.jump_sp (w : Word) : (s.jump w).sp = s.sp := rfl
@[simp] theorem State.jump_dt (w : Word) : (s.jump w).dt = s.dt := rfl
@[simp] theorem State.jump_st (w : Word) : (s.jump w).st = s.st := rfl
@[simp] theorem State.jump_mem (w : Word) : (s.jump w).mem = s.mem := rfl
@[simp] theorem State.jump_pix (w : Word) : (s.jump w).pix = s.pix := rfl
@[simp] theorem State.jump_keys (w : Word) : (s.jump w).keys = s.keys := rfl
@[simp] theorem State.jump_opcode (w : Word) : (s.jump w).opcode = s.opcode := rfl
@[simp] theorem State.jump_status (w : Word) : (s.jump w).status = s.status := rfl
@[simp] theorem State.jump_loaded (w : Word) : (s.jump w).loaded = s.loaded := rfl
@[simp] theorem State.jump_reply (w : Word) : (s.jump w).reply = s.reply := rfl
@[simp] theorem State.jump_rnd (w : Word) : (s.jump w).rnd = s.rnd := rfl
@[simp] theorem State.jump_draws (w : Word) : (s.jump w).draws = s.draws := rfl

/-! ### haltWith -/

@[simp] theorem haltWith_config (e : StepError) : (haltWith e s).config = s.config := rfl
@[simp] theorem haltWith_v (e : StepError) : (haltWith e s).v = s.v := rfl
@[simp] theorem haltWith_i (e : StepError) : (haltWith e s).i = s.i := rfl
@[simp] theorem haltWith_pc (e : StepError) : (haltWith e s).pc = s.pc := rfl
@[simp] theorem haltWith_stack (e : StepError) : (haltWith e s).stack = s.stack := rfl
@[simp] theorem haltWith_sp (e : StepError) : (haltWith e s).sp = s.sp := rfl
@[simp] theorem haltWith_dt (e : StepError) : (haltWith e s).dt = s.dt := rfl
@[simp] theorem haltWith_st (e : StepError) : (haltWith e s).st = s.st := rfl
@[simp] theorem haltWith_mem (e : StepError) : (haltWith e s).mem = s.mem := rfl
@[simp] theorem haltWith_pix (e : StepError) : (haltWith e s).pix = s.pix := rfl
@[simp] theorem haltWith_keys (e : StepError) : (haltWith e s).keys = s.keys := rfl
@[simp] theorem haltWith_opcode (e : StepError) : (haltWith e s).opcode = s.opcode := rfl
@[simp] theorem haltWith_status (e : StepError) : (haltWith e s).status = .halted e.kind := rfl
@[simp] theorem haltWith_loaded (e : StepError) : (haltWith e s).loaded = s.loaded := rfl
@[simp] theorem haltWith_reply (e : StepError) : (haltWith e s).reply = .error e := rfl
@[simp] theorem haltWith_rnd (e : StepError) : (haltWith e s).rnd = s.rnd := rfl
@[simp] theorem haltWith_draws (e : StepError) : (haltWith e s).draws = s.draws := rfl

/-! ### advance -/

@[simp] theorem advance_config (w : Word) (b : Byte) : (advance w b s).config = s.config := rfl
@[simp] theorem advance_v (w : Word) (b : Byte) : (advance w b s).v = s.v := rfl
@[simp] theorem advance_i (w : Word) (b : Byte) : (advance w b s).i = s.i := rfl
@[simp] theorem advance_pc (w : Word) (b : Byte) : (advance w b s).pc = s.pc + 2 := rfl
@[simp] theorem advance_stack (w : Word) (b : Byte) : (advance w b s).stack = s.stack := rfl
@[simp] theorem advance_sp (w : Word) (b : Byte) : (advance w b s).sp = s.sp := rfl
@[simp] theorem advance_dt (w : Word) (b : Byte) : (advance w b s).dt = s.dt := rfl
@[simp] theorem advance_st (w : Word) (b : Byte) : (advance w b s).st = s.st := rfl
@[simp] theorem advance_mem (w : Word) (b : Byte) : (advance w b s).mem = s.mem := rfl
@[simp] theorem advance_pix (w : Word) (b : Byte) : (advance w b s).pix = s.pix := rfl
@[simp] theorem advance_keys (w : Word) (b : Byte) : (advance w b s).keys = s.keys := rfl
@[simp] theorem advance_opcode (w : Word) (b : Byte) : (advance w b s).opcode = w := rfl
@[simp] theorem advance_status (w : Word) (b : Byte) : (advance w b s).status = s.status := rfl
@[simp] theorem advance_loaded (w : Word) (b : Byte) : (advance w b s).loaded = s.loaded := rfl
@[simp] theorem advance_reply (w : Word) (b : Byte) : (advance w b s).reply = s.reply := rfl
@[simp] theorem advance_rnd (w : Word) (b : Byte) : (advance w b s).rnd = b := rfl
@[simp] theorem advance_draws (w : Word) (b : Byte) : (advance w b s).draws = s.draws + 1 := rfl

/-! ### State.skipIf -/

@[simp] theorem State.skipIf_config (c : Bool) : (s.skipIf c).config = s.config := by cases c <;> rfl
@[simp] theorem State.skipIf_v (c : Bool) : (s.skipIf c).v = s.v := by cases c <;> rfl
@[simp] theorem State.skipIf_i (c : Bool) : (s.skipIf c).i = s.i := by cases c <;> rfl
@[simp] theorem State.skipIf_pc (c : Bool) : (s.skipIf c).pc = if c then s.pc + 2 else s.pc := by
  cases c <;> rfl
@[simp] theorem State.skipIf_stack (c : Bool) : (s.skipIf c).stack = s.stack := by cases c <;> rfl
@[simp] theorem State.skipIf_sp (c : Bool) : (s.skipIf c).sp = s.sp := by cases c <;> rfl
@[simp] theorem State.skipIf_dt (c : Bool) : (s.skipIf c).dt = s.dt := by cases c <;> rfl
@[simp] theorem State.skipIf_st (c : Bool) : (s.skipIf c).st = s.st := by cases c <;> rfl
@[simp] theorem State.skipIf_mem (c : Bool) : (s.skipIf c).mem = s.mem := by cases c <;> rfl
@[simp] theorem State.skipIf_pix (c : Bool) : (s.skipIf c).pix = s.pix := by cases c <;> rfl
@[simp] theorem State.skipIf_keys (c : Bool) : (s.skipIf c).keys = s.keys := by cases c <;> rfl
@[simp] theorem State.skipIf_opcode (c : Bool) : (s.skipIf c).opcode = s.opcode := by cases c <;> rfl
@[simp] theorem State.skipIf_status (c : Bool) : (s.skipIf c).status = s.status := by cases c <;> rfl
@[simp] theorem State.skipIf_loaded (c : Bool) : (s.skipIf c).loaded = s.loaded := by cases c <;> rfl
@[simp] theorem State.skipIf_reply (c : Bool) : (s.skipIf c).reply = s.reply := by cases c <;> rfl
@[simp] theorem State.skipIf_rnd (c : Bool) : (s.skipIf c).rnd = s.rnd := by cases c <;> rfl
@[simp] theorem State.skipIf_draws (c : Bool) : (s.skipIf c).draws = s.draws := by cases c <;> rfl

/-! ### Reads through the accessors -/

@[simp] theorem State.readV_writeV_same (r : Reg) (b : Byte) : (s.writeV r b).readV r = b := by
  simp [State.readV]

theorem State.readV_writeV_ne {r q : Reg} (b : Byte) (h : q ≠ r) : (s.writeV r b).readV q = s.readV q := by
  have : r.val ≠ q.val := fun e => h (Fin.ext e.symm)
  simp [State.readV, this]

theorem State.readV_writeV (r q : Reg) (b : Byte) : (s.writeV r b).readV q = if q = r then b else s.readV q := by
  split
  · next h => subst h; simp
  · next h => exact s.readV_writeV_ne b h

@[simp] theorem State.readV_writeFlag_same (b : Bool) : (s.writeFlag b).readV flagReg = flagByte b :=
  s.readV_writeV_same flagReg _

theorem State.readV_writeFlag_ne {q : Reg} (b : Bool) (h : q ≠ flagReg) : (s.writeFlag b).readV q = s.readV q :=
  s.readV_writeV_ne _ h

/-- What every register reads after a result and a flag are written: the flag wins in VF (43_register_alu.md R162). -/
theorem State.readV_writeResultThenFlag (x q : Reg) (r : Byte) (b : Bool) :
    (s.writeResultThenFlag x r b).readV q =
      if q = flagReg then flagByte b else if q = x then r else s.readV q := by
  unfold State.writeResultThenFlag State.writeFlag
  rw [State.readV_writeV, State.readV_writeV]

/-- A read of memory depends on the memory and the parameters only. -/
theorem State.readByte_congr {s t : State} (hc : t.config = s.config) (hm : t.mem = s.mem) (a : Nat) :
    t.readByte a = s.readByte a := by
  unfold State.readByte; rw [hc, hm]

end Sys2Proof.Machine
end

