-- ==== Sys2Proof/Laws/Memory.lean ====
section
/-! SUPPORT. Memory as a list in canonical form: a read after a write, what a block of writes stores, and that every memory operation keeps the form. -/

namespace Sys2Proof.Machine

variable (font : Font)

theorem Memory.get_erase (m : Memory) (a c : Nat) :
    Memory.get font (Memory.erase m a) c = if c = a then resetByte font c else Memory.get font m c := by
  induction m with
  | nil => simp [Memory.erase, Memory.get]
  | cons cell m ih =>
    obtain ⟨k, b⟩ := cell
    unfold Memory.erase at ih ⊢
    by_cases hk : k = a
    · rw [List.filter_cons_of_neg (by simp [hk]), ih]
      by_cases hc : c = a
      · simp [hc]
      · simp [hc, Memory.get, show k ≠ c by omega]
    · rw [List.filter_cons_of_pos (by simp [hk])]
      simp only [Memory.get, ih]
      by_cases hkc : k = c
      · simp [hkc, show c ≠ a by omega]
      · simp [hkc]

theorem Memory.get_insert {m : Memory} {a : Nat} (h : ∀ cell ∈ m, cell.1 ≠ a) (b : Byte) (c : Nat) :
    Memory.get font (Memory.insert m a b) c = if c = a then b else Memory.get font m c := by
  induction m with
  | nil =>
    by_cases hc : c = a
    · simp [Memory.insert, Memory.get, hc]
    · simp [Memory.insert, Memory.get, hc, show a ≠ c by omega]
  | cons cell m ih =>
    obtain ⟨k, d⟩ := cell
    have hk : k ≠ a := h (k, d) (by simp)
    have ih := ih (fun cell hc => h cell (by simp [hc]))
    unfold Memory.insert
    split
    · by_cases hc : c = a
      · simp [Memory.get, hc]
      · simp [Memory.get, hc, show a ≠ c by omega]
    · simp only [Memory.get, ih]
      by_cases hkc : k = c
      · simp [hkc, show c ≠ a by omega]
      · simp [hkc]

theorem Memory.not_mem_erase (m : Memory) (a : Nat) : ∀ cell ∈ Memory.erase m a, cell.1 ≠ a := by
  intro cell h
  simpa using (List.mem_filter.mp h).2

/-- A read after a write: the byte at its address, the old byte elsewhere. -/
@[simp] theorem Memory.get_put (m : Memory) (a c : Nat) (b : Byte) :
    Memory.get font (Memory.put font m a b) c = if c = a then b else Memory.get font m c := by
  unfold Memory.put
  split
  · next h => rw [Memory.get_erase]; split <;> simp_all
  · next h =>
    rw [Memory.get_insert font (Memory.not_mem_erase m a), Memory.get_erase]
    split <;> simp_all

/-- What a block of writes stores, and that it stores nothing else. -/
theorem Memory.get_putList (m : Memory) (a : Nat) (bs : List Byte) (c : Nat) :
    Memory.get font (Memory.putList font m a bs) c =
      if h : a ≤ c ∧ c < a + bs.length then bs[c - a]'(by omega) else Memory.get font m c := by
  induction bs generalizing m a with
  | nil => simp [Memory.putList, show ¬ (a ≤ c ∧ c < a) by omega]
  | cons b bs ih =>
    rw [Memory.putList, ih, Memory.get_put]
    by_cases h1 : c = a
    · subst h1; simp
    · by_cases h2 : a + 1 ≤ c ∧ c < a + 1 + bs.length
      · have h3 : a ≤ c ∧ c < a + (b :: bs).length := by simp; omega
        have h4 : c - a = (c - (a + 1)) + 1 := by omega
        simp only [h2, h3, and_self, dite_true]
        simp [h4]
      · have h3 : ¬ (a ≤ c ∧ c < a + (b :: bs).length) := by simp; omega
        rw [dif_neg h2, if_neg h1, dif_neg h3]

/-! ### Canonical form -/

theorem Memory.wfFrom_cons (lo a : Nat) (b : Byte) (m : Memory) :
    Memory.wfFrom font lo ((a, b) :: m) = true ↔
      lo ≤ a ∧ a < 4096 ∧ b ≠ resetByte font a ∧ Memory.wfFrom font (a + 1) m = true := by
  simp [Memory.wfFrom, and_assoc]

theorem Memory.wfFrom_weaken {lo lo' : Nat} {m : Memory} (h : Memory.wfFrom font lo m = true) (hl : lo' ≤ lo) :
    Memory.wfFrom font lo' m = true := by
  cases m with
  | nil => rfl
  | cons cell m =>
    obtain ⟨a, b⟩ := cell
    rw [Memory.wfFrom_cons] at h ⊢
    exact ⟨by omega, h.2⟩

theorem Memory.wfFrom_erase {lo : Nat} {m : Memory} (h : Memory.wfFrom font lo m = true) (a : Nat) :
    Memory.wfFrom font lo (Memory.erase m a) = true := by
  induction m generalizing lo with
  | nil => rfl
  | cons cell m ih =>
    obtain ⟨k, b⟩ := cell
    rw [Memory.wfFrom_cons] at h
    have ih' := ih h.2.2.2
    unfold Memory.erase at ih' ⊢
    by_cases hk : k = a
    · rw [List.filter_cons_of_neg (by simp [hk])]
      exact Memory.wfFrom_weaken font ih' (by omega)
    · rw [List.filter_cons_of_pos (by simp [hk]), Memory.wfFrom_cons]
      exact ⟨h.1, h.2.1, h.2.2.1, ih'⟩

theorem Memory.wfFrom_insert {lo a : Nat} {b : Byte} {m : Memory} (h : Memory.wfFrom font lo m = true)
    (hm : ∀ cell ∈ m, cell.1 ≠ a) (hl : lo ≤ a) (ha : a < 4096) (hb : b ≠ resetByte font a) :
    Memory.wfFrom font lo (Memory.insert m a b) = true := by
  induction m generalizing lo with
  | nil => simp [Memory.insert, Memory.wfFrom, hl, ha, hb]
  | cons cell m ih =>
    obtain ⟨k, c⟩ := cell
    have hk : k ≠ a := hm (k, c) (by simp)
    rw [Memory.wfFrom_cons] at h
    unfold Memory.insert
    split
    · rw [Memory.wfFrom_cons, Memory.wfFrom_cons]
      exact ⟨hl, ha, hb, by omega, h.2⟩
    · rw [Memory.wfFrom_cons]
      exact ⟨h.1, h.2.1, h.2.2.1, ih h.2.2.2 (fun cell hc => hm cell (by simp [hc])) (by omega)⟩

/-- A write at an address of the space keeps the canonical form. -/
theorem Memory.wf_put {m : Memory} (h : Memory.wf font m = true) {a : Nat} (ha : a < 4096) (b : Byte) :
    Memory.wf font (Memory.put font m a b) = true := by
  unfold Memory.put
  split
  · exact Memory.wfFrom_erase font h a
  · next hb =>
    exact Memory.wfFrom_insert font (Memory.wfFrom_erase font h a) (Memory.not_mem_erase m a) (by omega) ha hb

/-- A block of writes inside the space keeps the canonical form. -/
theorem Memory.wf_putList {m : Memory} (h : Memory.wf font m = true) {a : Nat} (bs : List Byte)
    (ha : a + bs.length ≤ 4096) : Memory.wf font (Memory.putList font m a bs) = true := by
  induction bs generalizing m a with
  | nil => exact h
  | cons b bs ih =>
    simp only [List.length_cons] at ha
    exact ih (Memory.wf_put font h (by omega) b) (by omega)

/-- Reset memory is in canonical form. -/
theorem State.reset_memory_wf : Memory.wf State.reset.config.font State.reset.mem = true := rfl

/-! ### Canonical form makes equal memories equal lists -/

theorem Memory.get_of_lt {lo : Nat} {m : Memory} (h : Memory.wfFrom font lo m = true) {c : Nat} (hc : c < lo) :
    Memory.get font m c = resetByte font c := by
  induction m generalizing lo with
  | nil => rfl
  | cons cell m ih =>
    obtain ⟨a, b⟩ := cell
    rw [Memory.wfFrom_cons] at h
    rw [Memory.get, if_neg (by omega), ih h.2.2.2 (by omega)]

theorem Memory.ext_wfFrom {lo lo' : Nat} {m m' : Memory} (h : Memory.wfFrom font lo m = true)
    (h' : Memory.wfFrom font lo' m' = true) (heq : ∀ c, Memory.get font m c = Memory.get font m' c) : m = m' := by
  induction m generalizing lo lo' m' with
  | nil =>
    cases m' with
    | nil => rfl
    | cons cell' m' =>
      obtain ⟨a', b'⟩ := cell'
      rw [Memory.wfFrom_cons] at h'
      have := heq a'
      simp only [Memory.get, if_true] at this
      exact absurd this.symm h'.2.2.1
  | cons cell m ih =>
    obtain ⟨a, b⟩ := cell
    rw [Memory.wfFrom_cons] at h
    cases m' with
    | nil =>
      have := heq a
      simp only [Memory.get, if_true] at this
      exact absurd this h.2.2.1
    | cons cell' m' =>
      obtain ⟨a', b'⟩ := cell'
      rw [Memory.wfFrom_cons] at h'
      have hA := heq a
      have hA' := heq a'
      simp only [Memory.get, if_true] at hA hA'
      have haa : a = a' := by
        rcases Nat.lt_trichotomy a a' with hlt | he | hgt
        · rw [if_neg (by omega), Memory.get_of_lt font h'.2.2.2 (by omega)] at hA
          exact absurd hA h.2.2.1
        · exact he
        · rw [if_neg (by omega), Memory.get_of_lt font h.2.2.2 (by omega)] at hA'
          exact absurd hA'.symm h'.2.2.1
      subst haa
      rw [if_pos rfl] at hA
      subst hA
      have : m = m' := ih h.2.2.2 h'.2.2.2 (fun c => by
        by_cases hc : c = a
        · subst hc
          rw [Memory.get_of_lt font h.2.2.2 (by omega), Memory.get_of_lt font h'.2.2.2 (by omega)]
        · have := heq c
          simpa [Memory.get, show a ≠ c by omega] using this)
      rw [this]

/-- Memories in canonical form that read the same are the same list. -/
theorem Memory.ext_wf {m m' : Memory} (h : Memory.wf font m = true) (h' : Memory.wf font m' = true)
    (heq : ∀ c, Memory.get font m c = Memory.get font m' c) : m = m' :=
  Memory.ext_wfFrom font h h' heq

end Sys2Proof.Machine
end

