-- ==== Sys2Proof/Laws/Ops.lean ====
section
/-! SUPPORT. One lemma per shared operation, saying once what it does: single accesses, block accesses, the stack, skips, keys, register blocks. -/

namespace Sys2Proof.Machine

variable (s : State)

/-! ### Single accesses -/

@[simp] theorem State.readByte_writeByte (a c : Nat) (b : Byte) :
    (s.writeByte a b).readByte c = if c = a then b else s.readByte c :=
  Memory.get_put _ _ _ _ _

theorem memRead_ok {a : Nat} (h : a ≤ 4095) : memRead s a = .ok (s.readByte a) := if_pos h

theorem memRead_error {a : Nat} (h : 4095 < a) : memRead s a = .error a := if_neg (by omega)

theorem memWrite_ok {a : Nat} (h : a ≤ 4095) (b : Byte) : memWrite s a b = .ok (s.writeByte a b) := if_pos h

theorem memWrite_error {a : Nat} (h : 4095 < a) (b : Byte) : memWrite s a b = .error a := if_neg (by omega)

/-! ### Block accesses -/

/-- A block read inside memory gives the bytes in order. -/
theorem readBlock_ok (a n : Nat) (h : ∀ r < n, a + r ≤ 4095) :
    readBlock s a n = .ok ((List.range n).map (fun r => s.readByte (a + r))) := by
  induction n generalizing a with
  | zero => rfl
  | succ n ih =>
    have h0 : a ≤ 4095 := by have := h 0 (by omega); omega
    have hr : ∀ r < n, a + 1 + r ≤ 4095 := fun r hr => by have := h (r + 1) (by omega); omega
    rw [readBlock, memRead_ok s h0]
    simp only [ih (a + 1) hr, List.range_succ_eq_map, List.map_cons, List.map_map, Nat.add_zero]
    congr 3
    funext r
    simp only [Function.comp, Nat.succ_eq_add_one]
    congr 1
    omega

/-- A block read that leaves memory reports its first address above 4095. -/
theorem readBlock_error (a n r : Nat) (hr : r < n) (hout : 4095 < a + r) (hin : ∀ q < r, a + q ≤ 4095) :
    readBlock s a n = .error (a + r) := by
  induction n generalizing a r with
  | zero => omega
  | succ n ih =>
    rw [readBlock]
    cases r with
    | zero => rw [memRead_error s (by omega)]; rfl
    | succ r =>
      have h0 : a ≤ 4095 := by have := hin 0 (by omega); omega
      rw [memRead_ok s h0]
      simp only
      rw [ih (a + 1) r (by omega) (by omega) (fun q hq => by have := hin (q + 1) (by omega); omega)]
      simp only [Except.error.injEq]
      omega

/-- Either a block is inside memory or there is a first address of it above 4095. -/
theorem block_inside_or_first_outside (a n : Nat) :
    (∀ r < n, a + r ≤ 4095) ∨ ∃ r, r < n ∧ 4095 < a + r ∧ ∀ q < r, a + q ≤ 4095 := by
  by_cases h : a + n ≤ 4096
  · exact .inl (fun r hr => by omega)
  · by_cases hn : n = 0
    · exact .inl (fun r hr => by omega)
    · refine .inr ⟨4096 - a, by omega, by omega, fun q hq => by omega⟩

/-- A block write inside memory stores the bytes and changes nothing else. -/
theorem writeBlock_ok (a : Nat) (bs : List Byte) (h : ∀ r < bs.length, a + r ≤ 4095) :
    writeBlock s a bs = .ok { s with mem := Memory.putList s.config.font s.mem a bs } := by
  induction bs generalizing s a with
  | nil => rfl
  | cons b bs ih =>
    have h0 : a ≤ 4095 := by have := h 0 (by simp); omega
    rw [writeBlock, memWrite_ok s h0]
    simp only
    rw [ih (s.writeByte a b) (a + 1) (fun r hr => by have := h (r + 1) (by simpa using hr); omega)]
    rfl

/-- A block write that leaves memory reports its first address above 4095. -/
theorem writeBlock_error (a : Nat) (bs : List Byte) (r : Nat) (hr : r < bs.length) (hout : 4095 < a + r)
    (hin : ∀ q < r, a + q ≤ 4095) : writeBlock s a bs = .error (a + r) := by
  induction bs generalizing s a r with
  | nil => simp at hr
  | cons b bs ih =>
    rw [writeBlock]
    cases r with
    | zero => rw [memWrite_error s (by omega)]; rfl
    | succ r =>
      have h0 : a ≤ 4095 := by have := hin 0 (by omega); omega
      rw [memWrite_ok s h0]
      simp only
      rw [ih (s.writeByte a b) (a + 1) r (by simpa using hr) (by omega)
        (fun q hq => by have := hin (q + 1) (by omega); omega)]
      simp only [Except.error.injEq]
      omega

/-- A byte of memory after a block write. -/
theorem State.readByte_putList (a : Nat) (bs : List Byte) (c : Nat) :
    State.readByte { s with mem := Memory.putList s.config.font s.mem a bs } c =
      if h : a ≤ c ∧ c < a + bs.length then bs[c - a]'(by omega) else s.readByte c :=
  Memory.get_putList _ _ _ _ _

/-! ### Operands -/

@[simp] theorem bcdDigits_length (v : Byte) : (bcdDigits v).length = 3 := rfl

@[simp] theorem regsUpTo_length (x : Reg) : (regsUpTo s x).length = x.val + 1 := by
  simp [regsUpTo]

theorem regsUpTo_getElem (x : Reg) (r : Nat) (h : r < (regsUpTo s x).length) :
    (regsUpTo s x)[r] = s.readV ⟨r, by simp at h; omega⟩ := by
  simp [regsUpTo, State.readV]

/-- The registers after a block of loads. -/
theorem loadRegs_getElem (v : Vector Byte 16) (r : Nat) (bs : List Byte) (q : Nat) (hq : q < 16) :
    (loadRegs v r bs)[q] = if h : r ≤ q ∧ q < r + bs.length then bs[q - r]'(by omega) else v[q] := by
  induction bs generalizing v r with
  | nil => simp [loadRegs, show ¬ (r ≤ q ∧ q < r) by omega]
  | cons b bs ih =>
    rw [loadRegs, ih]
    by_cases h1 : r + 1 ≤ q ∧ q < r + 1 + bs.length
    · have h2 : r ≤ q ∧ q < r + (b :: bs).length := by simp; omega
      have h3 : q - r = (q - (r + 1)) + 1 := by omega
      simp only [h1, h2, and_self, dite_true]
      simp [h3]
    · by_cases h4 : q = r
      · subst h4
        simp
      · have h2 : ¬ (r ≤ q ∧ q < r + (b :: bs).length) := by simp; omega
        rw [dif_neg h1, dif_neg h2, Vector.getElem_setIfInBounds _ , if_neg (by omega)]

/-- No key is pressed exactly when there is no lowest pressed key. -/
theorem lowestPressed_none (keys : Vector Bool 16) :
    lowestPressed keys = none ↔ ∀ k : Fin 16, keys[k.val] = false := by
  simp [lowestPressed, List.find?_eq_none]

/-- The lowest pressed key is pressed and no lower one is. -/
theorem lowestPressed_some {keys : Vector Bool 16} {k : Fin 16} (h : lowestPressed keys = some k) :
    keys[k.val] = true ∧ ∀ j : Fin 16, j < k → keys[j.val] = false := by
  unfold lowestPressed at h
  have hk : keys[k.val] = true := List.find?_some (p := fun k : Fin 16 => keys[k.val]) h
  refine ⟨hk, fun j hj => ?_⟩
  obtain ⟨-, as, bs, hsplit, has⟩ := List.find?_eq_some_iff_append.mp h
  have hmem : j ∈ as := by
    have hsorted : (List.finRange 16).Pairwise (· < ·) := List.pairwise_lt_finRange 16
    have hj' : j ∈ List.finRange 16 := List.mem_finRange j
    rw [hsplit] at hj' hsorted
    rcases List.mem_append.mp hj' with h1 | h1
    · exact h1
    · rcases List.mem_cons.mp h1 with h2 | h2
      · exact absurd hj (by rw [h2]; exact lt_irrefl _)
      · have := (List.pairwise_cons.mp (List.pairwise_append.mp hsorted).2.1).1 j h2
        exact absurd hj (not_lt.mpr (le_of_lt this))
  simpa using has j hmem

/-! ### The stack -/

theorem push_some (w : Word) (h : s.sp.val < 16) :
    push s w = some { s with stack := s.stack.set s.sp.val w, sp := ⟨s.sp.val + 1, by omega⟩ } := dif_pos h

theorem push_none (w : Word) (h : ¬ s.sp.val < 16) : push s w = none := dif_neg h

theorem pop_some (h : 0 < s.sp.val) :
    pop s = some (s.stack[s.sp.val - 1]'(by omega), { s with sp := ⟨s.sp.val - 1, by omega⟩ }) := dif_pos h

theorem pop_none (h : ¬ 0 < s.sp.val) : pop s = none := dif_neg h

/-! ### The display -/

theorem Display.pixel_clear (x : Fin 64) (y : Fin 32) : Display.pixel Display.clear x y = false := by
  simp [Display.pixel, Display.clear]

/-- A toggle flips its own pixel and no other. -/
theorem Display.pixel_toggle (d : Display) (x px : Fin 64) (y py : Fin 32) :
    Display.pixel (d.toggle x y) px py =
      if px = x ∧ py = y then !(Display.pixel d px py) else Display.pixel d px py := by
  unfold Display.pixel Display.toggle
  rw [Vector.getElem_set]
  by_cases hy : y.val = py.val
  · have hy' : py = y := Fin.ext hy.symm
    subst hy'
    rw [if_pos rfl, BitVec.getLsbD_xor, BitVec.getLsbD_twoPow]
    by_cases hx : px = x
    · subst hx; simp
    · have : x.val ≠ px.val := fun e => hx (Fin.ext e.symm)
      simp [hx, this]
  · rw [if_neg hy, if_neg (fun h => hy (by rw [h.2]))]

/-- Displays with the same pixels are equal. -/
theorem Display.ext_pixel {d e : Display} (h : ∀ x y, Display.pixel d x y = Display.pixel e x y) : d = e := by
  apply Vector.ext
  intro y hy
  apply BitVec.eq_of_getLsbD_eq
  intro x hx
  exact h ⟨x, hx⟩ ⟨y, hy⟩

/-! ### PC -/

/-- The rollback of PC after the fetch advance is exact (40_step_cycle.md R103, R107). -/
@[simp] theorem pc_advance_rewind (p : Word) : p + 2 - 2 = p := by
  simp

end Sys2Proof.Machine
end

