-- ==== Sys2Proof/Laws/Draw.lean ====
section
/-! SUPPORT. The sprite engine (spec/41_display.md R121): what toggling a list of distinct cells one after the other does to the display and to the collision flag, and that a sprite's cells are distinct. -/

namespace Sys2Proof.Machine

/-- Toggling distinct cells flips exactly those, and the flag is set when one of them was lit. -/
theorem drawCells_spec (cells : List Cell) (h : cells.Nodup) (d : Display) (k : Bool) :
    (∀ px py, Display.pixel (drawCells cells d k).1 px py =
      if (px, py) ∈ cells then !(Display.pixel d px py) else Display.pixel d px py) ∧
    (drawCells cells d k).2 = (k || cells.any (fun c => Display.pixel d c.1 c.2)) := by
  induction cells generalizing d k with
  | nil => simp [drawCells]
  | cons cell cells ih =>
    obtain ⟨x, y⟩ := cell
    obtain ⟨hnot, hnd⟩ := List.nodup_cons.mp h
    obtain ⟨ihp, ihk⟩ := ih hnd (d.toggle x y) (k || d.pixel x y)
    rw [drawCells]
    constructor
    · intro px py
      rw [ihp, Display.pixel_toggle]
      by_cases hc : px = x ∧ py = y
      · obtain ⟨rfl, rfl⟩ := hc
        simp [hnot]
      · have : (px, py) ≠ (x, y) := fun e => hc (by simpa using e)
        simp [hc, this]
    · rw [ihk]
      have hsame : cells.any (fun c => Display.pixel (d.toggle x y) c.1 c.2) =
          cells.any (fun c => Display.pixel d c.1 c.2) := by
        rw [Bool.eq_iff_iff, List.any_eq_true, List.any_eq_true]
        refine exists_congr fun c => and_congr_right fun hc => ?_
        rw [Display.pixel_toggle, if_neg]
        rintro ⟨h1, h2⟩
        exact hnot (by rw [← h1, ← h2]; exact hc)
      rw [hsame, List.any_cons, Bool.or_assoc]

/-- Which cells a row's set bits fall on. -/
theorem mem_rowCells (cx cy r : Nat) (row : Byte) (cell : Cell) :
    cell ∈ rowCells cx cy r row ↔ ∃ c, c < 8 ∧ row.getLsbD (7 - c) = true ∧ spriteCell cx cy r c = cell := by
  simp [rowCells, and_assoc]

/-- Which cells a sprite's set bits fall on. -/
theorem mem_spriteCells (cx cy r : Nat) (rows : List Byte) (cell : Cell) :
    cell ∈ spriteCells cx cy r rows ↔
      ∃ (q c : Nat) (h : q < rows.length), c < 8 ∧ (rows[q]).getLsbD (7 - c) = true ∧
        spriteCell cx cy (r + q) c = cell := by
  induction rows generalizing r with
  | nil => simp [spriteCells]
  | cons row rows ih =>
    rw [spriteCells, List.mem_append, mem_rowCells, ih]
    constructor
    · rintro (⟨c, hc, hb, he⟩ | ⟨q, c, hq, hc, hb, he⟩)
      · exact ⟨0, c, by simp, hc, by simpa using hb, by simpa using he⟩
      · exact ⟨q + 1, c, by simpa using hq, hc, by simpa using hb, by rw [← he]; congr 1; omega⟩
    · rintro ⟨q, c, hq, hc, hb, he⟩
      cases q with
      | zero => exact .inl ⟨c, hc, by simpa using hb, by simpa using he⟩
      | succ q => exact .inr ⟨q, c, by simpa using hq, hc, by simpa using hb, by rw [← he]; congr 1; omega⟩

theorem spriteCell_fst (cx cy r c : Nat) : (spriteCell cx cy r c).1.val = (cx + c) % 64 := rfl

theorem spriteCell_snd (cx cy r c : Nat) : (spriteCell cx cy r c).2.val = (cy + r) % 32 := rfl

/-- A sprite of at most 32 rows never overlaps itself (R121's corner case). -/
theorem spriteCells_nodup (cx cy r : Nat) (rows : List Byte) (h : rows.length ≤ 32) :
    (spriteCells cx cy r rows).Nodup := by
  induction rows generalizing r with
  | nil => simp [spriteCells]
  | cons row rows ih =>
    simp only [List.length_cons] at h
    rw [spriteCells, List.nodup_append]
    refine ⟨?_, ih (r + 1) (by omega), ?_⟩
    · unfold rowCells
      refine List.Nodup.map_on ?_ (List.Nodup.filter _ List.nodup_range)
      intro c hc c' hc' he
      have h1 : c < 8 := List.mem_range.mp (List.mem_of_mem_filter hc)
      have h2 : c' < 8 := List.mem_range.mp (List.mem_of_mem_filter hc')
      have := congrArg (fun p : Cell => p.1.val) he
      simp only [spriteCell_fst] at this
      omega
    · intro a ha b hb hab
      subst hab
      obtain ⟨c, -, -, h1⟩ := (mem_rowCells ..).mp ha
      obtain ⟨q, c', hq, -, -, h2⟩ := (mem_spriteCells ..).mp hb
      have := congrArg (fun p : Cell => p.2.val) (h1.trans h2.symm)
      simp only [spriteCell_snd] at this
      omega

end Sys2Proof.Machine
end

