-- ==== Sys2Proof/Laws/Exec.lean ====
section
/-! SUPPORT. What the meanings and the step can do, said once: the two ends of an instruction, what each instruction with several outcomes does in each, and the inversion of exec, of the step and of the transactions. -/

namespace Sys2Proof.Machine

variable (s : State)

/-! ### The instructions with several outcomes -/

/-- Rows of a sprite in memory, first at address a. -/
abbrev bytesFrom (s : State) (a n : Nat) : List Byte := (List.range n).map (fun r => s.readByte (a + r))

theorem execDrw_ok (x y : Reg) (n : Nat) (h : ∀ r < n, s.indexAddr 0 + r ≤ 4095) :
    execDrw x y n s =
      let drawn := drawCells
        (spriteCells (s.readV x).toNat (s.readV y).toNat 0 (bytesFrom s (s.indexAddr 0) n)) s.pix false
      complete (State.writeFlag { s with pix := drawn.1 } drawn.2) := by
  simp only [execDrw, readBlock_ok s _ _ h]

theorem execDrw_error (x y : Reg) (n r : Nat) (hr : r < n) (hout : 4095 < s.indexAddr 0 + r)
    (hin : ∀ q < r, s.indexAddr 0 + q ≤ 4095) :
    execDrw x y n s = raise (.outOfBounds (s.indexAddr 0 + r) .data) s := by
  simp only [execDrw, readBlock_error s _ _ r hr hout hin]

theorem execLdVMem_ok (x : Reg) (h : ∀ r < x.val + 1, s.indexAddr 0 + r ≤ 4095) :
    execLdVMem x s =
      complete { s with v := loadRegs s.v 0 (bytesFrom s (s.indexAddr 0) (x.val + 1)) } := by
  simp only [execLdVMem, readBlock_ok s _ _ h]

theorem execLdVMem_error (x : Reg) (r : Nat) (hr : r < x.val + 1) (hout : 4095 < s.indexAddr 0 + r)
    (hin : ∀ q < r, s.indexAddr 0 + q ≤ 4095) :
    execLdVMem x s = raise (.outOfBounds (s.indexAddr 0 + r) .data) s := by
  simp only [execLdVMem, readBlock_error s _ _ r hr hout hin]

theorem execLdMemV_ok (x : Reg) (h : ∀ r < x.val + 1, s.indexAddr 0 + r ≤ 4095) :
    execLdMemV x s = complete { s with
      mem := Memory.putList s.config.font s.mem (s.indexAddr 0) (regsUpTo s x) } := by
  simp only [execLdMemV, writeBlock_ok s _ (regsUpTo s x) (by simpa using h)]

theorem execLdMemV_error (x : Reg) (r : Nat) (hr : r < x.val + 1) (hout : 4095 < s.indexAddr 0 + r)
    (hin : ∀ q < r, s.indexAddr 0 + q ≤ 4095) :
    execLdMemV x s = raise (.outOfBounds (s.indexAddr 0 + r) .data) s := by
  simp only [execLdMemV, writeBlock_error s _ (regsUpTo s x) r (by simpa using hr) hout hin]

theorem execLdB_ok (x : Reg) (h : ∀ r < 3, s.indexAddr 0 + r ≤ 4095) :
    execLdB x s = complete { s with
      mem := Memory.putList s.config.font s.mem (s.indexAddr 0) (bcdDigits (s.readV x)) } := by
  simp only [execLdB, writeBlock_ok s _ (bcdDigits (s.readV x)) (by simpa using h)]

theorem execLdB_error (x : Reg) (r : Nat) (hr : r < 3) (hout : 4095 < s.indexAddr 0 + r)
    (hin : ∀ q < r, s.indexAddr 0 + q ≤ 4095) :
    execLdB x s = raise (.outOfBounds (s.indexAddr 0 + r) .data) s := by
  simp only [execLdB, writeBlock_error s _ (bcdDigits (s.readV x)) r (by simpa using hr) hout hin]

theorem execCall_ok (nnn : Addr12) (h : s.sp.val < 16) :
    execCall nnn s = complete { s with
      stack := s.stack.set s.sp.val s.pc, sp := ⟨s.sp.val + 1, by omega⟩, pc := zext16 nnn } := by
  simp only [execCall, push_some s s.pc h]; rfl

theorem execCall_full (nnn : Addr12) (h : ¬ s.sp.val < 16) : execCall nnn s = raise .stackOverflow s := by
  simp only [execCall, push_none s s.pc h]

theorem execRet_ok (h : 0 < s.sp.val) :
    execRet s = complete { s with
      pc := s.stack[s.sp.val - 1]'(by omega), sp := ⟨s.sp.val - 1, by omega⟩ } := by
  simp only [execRet, pop_some s h]; rfl

theorem execRet_empty (h : ¬ 0 < s.sp.val) : execRet s = raise .stackUnderflow s := by
  simp only [execRet, pop_none s h]

theorem skipOnKey_ok (x : Reg) (level : Bool) (h : (s.readV x).toNat < 16) :
    skipOnKey x level s = complete (s.skipIf (s.keys[(s.readV x).toNat] == level)) := dif_pos h

theorem skipOnKey_error (x : Reg) (level : Bool) (h : ¬ (s.readV x).toNat < 16) :
    skipOnKey x level s = raise (.outOfBounds (s.readV x).toNat .key) s := dif_neg h

/-! ### Inversion of exec -/

/-- The instructions that may write PC when they complete (10_state.md R23). -/
abbrev MovesPc (i : Instr) : Prop :=
  i = .ret ∨ (∃ nnn, i = .jp nnn ∨ i = .call nnn ∨ i = .jpV0 nnn) ∨
  (∃ x kk, i = .seImm x kk ∨ i = .sneImm x kk) ∨ (∃ x y, i = .seReg x y ∨ i = .sneReg x y) ∨
  (∃ x, i = .skp x ∨ i = .sknp x ∨ i = .ldVK x)

/-- What a completed instruction leaves: its effect field by field, as one of the shapes of the families. -/
inductive Effect (i : Instr) (s : State) : State → Prop
  /-- PC only; the target is a 12-bit address, an offset jump, the old PC, a skip, or the instruction itself -/
  | pc (target : Word)
      (hi : MovesPc i)
      (h : (∃ nnn : Addr12, target = zext16 nnn) ∨
        (∃ nnn : Addr12, i = .jpV0 nnn ∧ target = offsetTarget nnn (s.readV 0)) ∨
        target = s.pc ∨ target = s.pc + 2 ∨ target = s.pc - 2) :
      Effect i s { s with pc := target, reply := .ok }
  /-- a call -/
  | call (nnn : Addr12) (hi : i = .call nnn) (h : s.sp.val < 16) :
      Effect i s { s with
        stack := s.stack.set s.sp.val s.pc, sp := ⟨s.sp.val + 1, by omega⟩, pc := zext16 nnn, reply := .ok }
  /-- a return -/
  | ret (hi : i = .ret) (h : 0 < s.sp.val) :
      Effect i s { s with
        pc := s.stack[s.sp.val - 1]'(by omega), sp := ⟨s.sp.val - 1, by omega⟩, reply := .ok }
  /-- one register -/
  | reg (x : Reg) (b : Byte)
      (hi : (∃ kk, i = .ldImm x kk ∨ i = .addImm x kk ∨ i = .rnd x kk) ∨
        (∃ y, i = .orReg x y ∨ i = .andReg x y ∨ i = .xorReg x y) ∨ i = .ldVDt x ∨ i = .ldVK x) :
      Effect i s { s.writeV x b with reply := .ok }
  /-- a result and a flag -/
  | flagged (x : Reg) (b : Byte) (f : Bool)
      (hi : (∃ y, i = .addReg x y ∨ i = .sub x y ∨ i = .subn x y) ∨ i = .shr x ∨ i = .shl x) :
      Effect i s { s.writeResultThenFlag x b f with reply := .ok }
  /-- a block of registers -/
  | regs (x : Reg) (hi : i = .ldVMem x) (bytes : List Byte) (h : bytes.length = x.val + 1) :
      Effect i s { s with v := loadRegs s.v 0 bytes, reply := .ok }
  /-- I -/
  | index (w : Word) (hi : (∃ nnn, i = .ldI nnn) ∨ ∃ x, i = .addI x ∨ i = .ldF x) :
      Effect i s { s with i := w, reply := .ok }
  /-- a block of memory -/
  | bytes (bs : List Byte) (hi : ∃ x, i = .ldB x ∨ i = .ldMemV x)
      (h : ∀ r < bs.length, s.indexAddr 0 + r ≤ 4095) :
      Effect i s { s with mem := Memory.putList s.config.font s.mem (s.indexAddr 0) bs, reply := .ok }
  /-- DT -/
  | delay (x : Reg) (hi : i = .ldDtV x) : Effect i s { s with dt := s.readV x, reply := .ok }
  /-- ST -/
  | sound (x : Reg) (hi : i = .ldStV x) : Effect i s { s with st := s.readV x, reply := .ok }
  /-- the whole display -/
  | clear (hi : i = .cls) : Effect i s { s with pix := Display.clear, reply := .ok }
  /-- a sprite -/
  | draw (hi : ∃ x y n, i = .drw x y n) (d : Display) (f : Bool) :
      Effect i s { (State.writeFlag { s with pix := d } f) with reply := .ok }

/-- The error an instruction raises, and when. -/
inductive Raises : Instr → State → StepError → Prop
  | overflow (s : State) (nnn : Addr12) (h : s.sp.val = 16) : Raises (.call nnn) s .stackOverflow
  | underflow (s : State) (h : s.sp.val = 0) : Raises .ret s .stackUnderflow
  | data (s : State) (i : Instr) (n r : Nat) (hr : r < n) (hout : 4095 < s.indexAddr r)
      (hin : ∀ q < r, s.indexAddr q ≤ 4095)
      (hi : (∃ x y, i = .drw x y n) ∨ (∃ x, i = .ldB x ∧ n = 3) ∨
        ∃ x, (i = .ldMemV x ∨ i = .ldVMem x) ∧ n = x.val + 1) :
      Raises i s (.outOfBounds (s.indexAddr r) .data)
  | key (s : State) (i : Instr) (x : Reg) (h : 15 < (s.readV x).toNat) (hi : i = .skp x ∨ i = .sknp x) :
      Raises i s (.outOfBounds (s.readV x).toNat .key)

theorem complete_eq (s : State) : complete s = .next { s with reply := .ok } := rfl

theorem skipIf_effect {i : Instr} (hi : MovesPc i) (c : Bool) : Effect i s { s.skipIf c with reply := .ok } := by
  cases c
  · exact .pc s.pc hi (.inr (.inr (.inl rfl)))
  · exact .pc (s.pc + 2) hi (.inr (.inr (.inr (.inl rfl))))

/-- exec always answers a next state: the instruction's effect, or the entry of the error it raises. -/
theorem exec_cases (i : Instr) :
    (∃ t, exec i s = .next t ∧ Effect i s t) ∨ ∃ e, exec i s = raise e s ∧ Raises i s e := by
  cases i with
  | cls => exact .inl ⟨_, rfl, .clear rfl⟩
  | ret =>
    by_cases h : 0 < s.sp.val
    · exact .inl ⟨_, execRet_ok s h, .ret rfl h⟩
    · exact .inr ⟨_, execRet_empty s h, .underflow s (by omega)⟩
  | jp nnn => exact .inl ⟨_, rfl, .pc _ (by simp [MovesPc]) (.inl ⟨nnn, rfl⟩)⟩
  | call nnn =>
    by_cases h : s.sp.val < 16
    · exact .inl ⟨_, execCall_ok s nnn h, .call nnn rfl h⟩
    · exact .inr ⟨_, execCall_full s nnn h, .overflow s nnn (by omega)⟩
  | seImm x kk => exact .inl ⟨_, rfl, skipIf_effect s (by simp [MovesPc]) _⟩
  | sneImm x kk => exact .inl ⟨_, rfl, skipIf_effect s (by simp [MovesPc]) _⟩
  | seReg x y => exact .inl ⟨_, rfl, skipIf_effect s (by simp [MovesPc]) _⟩
  | sneReg x y => exact .inl ⟨_, rfl, skipIf_effect s (by simp [MovesPc]) _⟩
  | jpV0 nnn => exact .inl ⟨_, rfl, .pc _ (by simp [MovesPc]) (.inr (.inl ⟨nnn, rfl, rfl⟩))⟩
  | ldImm x kk => exact .inl ⟨_, rfl, .reg x _ (.inl ⟨kk, .inl rfl⟩)⟩
  | addImm x kk => exact .inl ⟨_, rfl, .reg x _ (.inl ⟨kk, .inr (.inl rfl)⟩)⟩
  | rnd x kk => exact .inl ⟨_, rfl, .reg x _ (.inl ⟨kk, .inr (.inr rfl)⟩)⟩
  | orReg x y => exact .inl ⟨_, rfl, .reg x _ (.inr (.inl ⟨y, .inl rfl⟩))⟩
  | andReg x y => exact .inl ⟨_, rfl, .reg x _ (.inr (.inl ⟨y, .inr (.inl rfl)⟩))⟩
  | xorReg x y => exact .inl ⟨_, rfl, .reg x _ (.inr (.inl ⟨y, .inr (.inr rfl)⟩))⟩
  | addReg x y => exact .inl ⟨_, rfl, .flagged x _ _ (.inl ⟨y, .inl rfl⟩)⟩
  | sub x y => exact .inl ⟨_, rfl, .flagged x _ _ (.inl ⟨y, .inr (.inl rfl)⟩)⟩
  | subn x y => exact .inl ⟨_, rfl, .flagged x _ _ (.inl ⟨y, .inr (.inr rfl)⟩)⟩
  | shr x => exact .inl ⟨_, rfl, .flagged x _ _ (.inr (.inl rfl))⟩
  | shl x => exact .inl ⟨_, rfl, .flagged x _ _ (.inr (.inr rfl))⟩
  | ldI nnn => exact .inl ⟨_, rfl, .index _ (.inl ⟨nnn, rfl⟩)⟩
  | addI x => exact .inl ⟨_, rfl, .index _ (.inr ⟨x, .inl rfl⟩)⟩
  | ldF x => exact .inl ⟨_, rfl, .index _ (.inr ⟨x, .inr rfl⟩)⟩
  | ldVDt x => exact .inl ⟨_, rfl, .reg x _ (.inr (.inr (.inl rfl)))⟩
  | ldDtV x => exact .inl ⟨_, rfl, .delay x rfl⟩
  | ldStV x => exact .inl ⟨_, rfl, .sound x rfl⟩
  | ldVK x =>
    cases h : lowestPressed s.keys with
    | none =>
      refine .inl ⟨{ s with pc := s.pc - 2, reply := .ok }, ?_, .pc _ (by simp [MovesPc]) (.inr (.inr (.inr (.inr rfl))))⟩
      simp only [exec, execLdVK, h]; rfl
    | some k =>
      refine .inl ⟨{ s.writeV x (BitVec.ofNat 8 k.val) with reply := .ok }, ?_, .reg x _ (.inr (.inr (.inr rfl)))⟩
      simp only [exec, execLdVK, h]; rfl
  | skp x =>
    by_cases h : (s.readV x).toNat < 16
    · exact .inl ⟨_, skipOnKey_ok s x true h, skipIf_effect s (by simp [MovesPc]) _⟩
    · exact .inr ⟨_, skipOnKey_error s x true h, .key s _ x (by omega) (.inl rfl)⟩
  | sknp x =>
    by_cases h : (s.readV x).toNat < 16
    · exact .inl ⟨_, skipOnKey_ok s x false h, skipIf_effect s (by simp [MovesPc]) _⟩
    · exact .inr ⟨_, skipOnKey_error s x false h, .key s _ x (by omega) (.inr rfl)⟩
  | drw x y n =>
    rcases block_inside_or_first_outside (s.indexAddr 0) n with h | ⟨r, hr, hout, hin⟩
    · exact .inl ⟨_, execDrw_ok s x y n h, .draw ⟨x, y, n, rfl⟩ _ _⟩
    · exact .inr ⟨_, execDrw_error s x y n r hr hout hin, .data s _ n r hr hout hin (.inl ⟨x, y, rfl⟩)⟩
  | ldB x =>
    rcases block_inside_or_first_outside (s.indexAddr 0) 3 with h | ⟨r, hr, hout, hin⟩
    · exact .inl ⟨_, execLdB_ok s x h, .bytes _ ⟨x, .inl rfl⟩ (by simpa using h)⟩
    · exact .inr ⟨_, execLdB_error s x r hr hout hin, .data s _ 3 r hr hout hin (.inr (.inl ⟨x, rfl, rfl⟩))⟩
  | ldMemV x =>
    rcases block_inside_or_first_outside (s.indexAddr 0) (x.val + 1) with h | ⟨r, hr, hout, hin⟩
    · exact .inl ⟨_, execLdMemV_ok s x h, .bytes _ ⟨x, .inr rfl⟩ (by simpa using h)⟩
    · exact .inr ⟨_, execLdMemV_error s x r hr hout hin, .data s _ _ r hr hout hin (.inr (.inr ⟨x, .inl rfl, rfl⟩))⟩
  | ldVMem x =>
    rcases block_inside_or_first_outside (s.indexAddr 0) (x.val + 1) with h | ⟨r, hr, hout, hin⟩
    · exact .inl ⟨_, execLdVMem_ok s x h, .regs x rfl _ (by simp)⟩
    · exact .inr ⟨_, execLdVMem_error s x r hr hout hin, .data s _ _ r hr hout hin (.inr (.inr ⟨x, .inr rfl, rfl⟩))⟩

/-- The next state of exec is the instruction's effect, or the entry of the error it raises. -/
theorem exec_next {i : Instr} {t : State} (h : exec i s = .next t) :
    Effect i s t ∨ ∃ e, t = haltWith e { s with pc := s.pc - 2 } ∧ Raises i s e := by
  rcases exec_cases s i with ⟨t', ht, he⟩ | ⟨e, ht, he⟩
  · rw [ht] at h; cases h; exact .inl he
  · rw [ht] at h; cases h; exact .inr ⟨e, rfl, he⟩

/-- Every effect ends with the reply OK. -/
theorem Effect.reply_ok {i : Instr} {s t : State} (h : Effect i s t) : t.reply = .ok := by
  cases h <;> rfl

/-! ### Inversion of the step -/

theorem fetch_ok (h : s.pc.toNat + 1 ≤ 4095) : fetch s = .ok (wordAtPc s) := if_neg (by omega)

theorem fetch_error (h : 4095 < s.pc.toNat + 1) :
    fetch s = .error (if 4095 < s.pc.toNat then s.pc.toNat else s.pc.toNat + 1) := if_pos h

/-- What a step of a loaded machine does: nothing when HALTED; a fetch error; a decode error; an instruction. -/
theorem stepWith_cases (rnd : Byte) (hl : s.loaded = true) :
    (∃ k, s.status = .halted k ∧ stepWith rnd s = .next { s with reply := .stillHalted k }) ∨
    (∃ a, s.status = .running ∧ 4095 < s.pc.toNat + 1 ∧
      a = (if 4095 < s.pc.toNat then s.pc.toNat else s.pc.toNat + 1) ∧
      stepWith rnd s = .next (haltWith (.outOfBounds a .fetch) s)) ∨
    (s.status = .running ∧ s.pc.toNat + 1 ≤ 4095 ∧
      ((∃ why, decodeWord (wordAtPc s) = .unrecognized why ∧
          stepWith rnd s = takeDecodeError (wordAtPc s) (advance (wordAtPc s) rnd s)) ∨
        ∃ i, decodeWord (wordAtPc s) = .instr i ∧ stepWith rnd s = exec i (advance (wordAtPc s) rnd s))) := by
  unfold stepWith
  rw [if_pos hl]
  cases hs : s.status with
  | halted k => exact .inl ⟨k, rfl, rfl⟩
  | running =>
    by_cases hp : 4095 < s.pc.toNat + 1
    · refine .inr (.inl ⟨_, rfl, hp, rfl, ?_⟩)
      simp only [cycle, fetch_error s hp]
    · refine .inr (.inr ⟨rfl, by omega, ?_⟩)
      simp only [cycle, fetch_ok s (by omega), decodeAndExecute]
      cases hd : decodeWord (wordAtPc s) with
      | unrecognized why => exact .inl ⟨why, rfl, rfl⟩
      | instr i => exact .inr ⟨i, rfl, rfl⟩

theorem stepWith_unloaded (rnd : Byte) (hl : s.loaded = false) : stepWith rnd s = .refused .beforeLoad := by
  unfold stepWith; rw [hl]; rfl

/-- The two ways a decode error ends (40_step_cycle.md R106). -/
theorem takeDecodeError_cases (w : Word) :
    (s.config.decodeErrorPolicy = .continues ∧
      takeDecodeError w s = .next { s with reply := .error (.decodeError w) }) ∨
    (s.config.decodeErrorPolicy = .halts ∧ takeDecodeError w s = .next (haltWith (.decodeError w) s)) := by
  unfold takeDecodeError
  cases s.config.decodeErrorPolicy
  · exact .inl ⟨rfl, rfl⟩
  · exact .inr ⟨rfl, rfl⟩

/-! ### Transactions -/

/-- Package the induction over a run of transactions once. -/
theorem transactAll_induction {P : State → Prop}
    (hstep : ∀ tr s t, P s → transact tr s = .next t → P t) :
    ∀ (trs : List Transaction) (s t : State), P s → transactAll trs s = .next t → P t := by
  intro trs
  induction trs with
  | nil => intro s t hs h; cases h; exact hs
  | cons tr trs ih =>
    intro s t hs h
    rw [transactAll] at h
    cases htr : transact tr s with
    | next s' => rw [htr] at h; exact ih s' t (hstep tr s s' hs htr) h
    | fault f => rw [htr] at h; cases h
    | refused r => rw [htr] at h; cases h

end Sys2Proof.Machine
end

