-- ==== Sys2Proof/Laws/PerInstr.lean ====
section
/-! SUPPORT. Statements made of every instruction as syntax, one lemma per constructor: the encoder's word carries the fixed bits of the instruction's row of the opcode table (spec/30_encoding.md R74). -/

namespace Sys2Proof.Laws

open Sys2Proof

theorem packNnn_fixed {op : Nat} (nnn : Addr12) (h : op < 16) :
    packNnn op nnn &&& 0xF000 = BitVec.ofNat 16 (op * 4096) := by
  have := nnn.isLt
  apply BitVec.eq_of_toNat_eq
  rw [and_F000_toNat, packNnn_toNat nnn h, BitVec.toNat_ofNat]; omega

theorem packKk_fixed_nibble {op : Nat} (x : Reg) {kk : Nat} (h : op < 16) (hk : kk < 256) :
    packKk op x kk &&& 0xF000 = BitVec.ofNat 16 (op * 4096) := by
  have := x.isLt
  apply BitVec.eq_of_toNat_eq
  rw [and_F000_toNat, packKk_toNat x h hk, BitVec.toNat_ofNat]; omega

theorem packKk_fixed_byte {op : Nat} (x : Reg) {kk : Nat} (h : op < 16) (hk : kk < 256) :
    packKk op x kk &&& 0xF0FF = BitVec.ofNat 16 (op * 4096 + kk) := by
  have := x.isLt
  apply BitVec.eq_of_toNat_eq
  rw [and_F0FF_toNat, packKk_toNat x h hk, BitVec.toNat_ofNat]; omega

theorem packNibbles_fixed_first {op x y n : Nat} (h : op < 16) (hx : x < 16) (hy : y < 16) (hn : n < 16) :
    packNibbles op x y n &&& 0xF000 = BitVec.ofNat 16 (op * 4096) := by
  apply BitVec.eq_of_toNat_eq
  rw [and_F000_toNat, packNibbles_toNat h hx hy hn, BitVec.toNat_ofNat]; omega

theorem packNibbles_fixed_ends {op x y n : Nat} (h : op < 16) (hx : x < 16) (hy : y < 16) (hn : n < 16) :
    packNibbles op x y n &&& 0xF00F = BitVec.ofNat 16 (op * 4096 + n) := by
  apply BitVec.eq_of_toNat_eq
  rw [and_F00F_toNat, packNibbles_toNat h hx hy hn, BitVec.toNat_ofNat]; omega

/-- The encoder's word of a well-formed instruction fits the instruction's row. -/
def RowBits.Statement (i : Instr) : Prop :=
  i.wellFormed = true → ∃ row ∈ opcodeTable, row.mnemonic = i.mnemonic ∧ row.fits (encode i) = true

/-- A row of the table whose fixed bits a word carries. -/
theorem RowBits.of_row {i : Instr} (row : OpcodeRow) (hmem : row ∈ opcodeTable) (hm : row.mnemonic = i.mnemonic)
    (h : i.wellFormed = true → encode i &&& row.mask = row.pattern) : RowBits.Statement i :=
  fun hw => ⟨row, hmem, hm, by simp [OpcodeRow.fits, h hw]⟩

theorem RowBits.cls : RowBits.Statement (.cls) :=
  RowBits.of_row ⟨"CLS", 0xFFFF, 0x00E0⟩ (by decide) rfl (fun _ => rfl)

theorem RowBits.ret : RowBits.Statement (.ret) :=
  RowBits.of_row ⟨"RET", 0xFFFF, 0x00EE⟩ (by decide) rfl (fun _ => rfl)

theorem RowBits.jp (nnn : Addr12) : RowBits.Statement (.jp nnn) :=
  RowBits.of_row ⟨"JP", 0xF000, 0x1000⟩ (by decide) rfl (fun _ => packNnn_fixed nnn (by decide))

theorem RowBits.call (nnn : Addr12) : RowBits.Statement (.call nnn) :=
  RowBits.of_row ⟨"CALL", 0xF000, 0x2000⟩ (by decide) rfl (fun _ => packNnn_fixed nnn (by decide))

theorem RowBits.seImm (x : Reg) (kk : Byte) : RowBits.Statement (.seImm x kk) :=
  RowBits.of_row ⟨"SE_imm", 0xF000, 0x3000⟩ (by decide) rfl (fun _ => packKk_fixed_nibble x (by decide) kk.isLt)

theorem RowBits.sneImm (x : Reg) (kk : Byte) : RowBits.Statement (.sneImm x kk) :=
  RowBits.of_row ⟨"SNE_imm", 0xF000, 0x4000⟩ (by decide) rfl (fun _ => packKk_fixed_nibble x (by decide) kk.isLt)

theorem RowBits.seReg (x y : Reg) : RowBits.Statement (.seReg x y) :=
  RowBits.of_row ⟨"SE_reg", 0xF00F, 0x5000⟩ (by decide) rfl (fun _ => packNibbles_fixed_ends (by decide) x.isLt y.isLt (by decide))

theorem RowBits.ldImm (x : Reg) (kk : Byte) : RowBits.Statement (.ldImm x kk) :=
  RowBits.of_row ⟨"LD_imm", 0xF000, 0x6000⟩ (by decide) rfl (fun _ => packKk_fixed_nibble x (by decide) kk.isLt)

theorem RowBits.addImm (x : Reg) (kk : Byte) : RowBits.Statement (.addImm x kk) :=
  RowBits.of_row ⟨"ADD_imm", 0xF000, 0x7000⟩ (by decide) rfl (fun _ => packKk_fixed_nibble x (by decide) kk.isLt)

theorem RowBits.orReg (x y : Reg) : RowBits.Statement (.orReg x y) :=
  RowBits.of_row ⟨"OR", 0xF00F, 0x8001⟩ (by decide) rfl (fun _ => packNibbles_fixed_ends (by decide) x.isLt y.isLt (by decide))

theorem RowBits.andReg (x y : Reg) : RowBits.Statement (.andReg x y) :=
  RowBits.of_row ⟨"AND", 0xF00F, 0x8002⟩ (by decide) rfl (fun _ => packNibbles_fixed_ends (by decide) x.isLt y.isLt (by decide))

theorem RowBits.xorReg (x y : Reg) : RowBits.Statement (.xorReg x y) :=
  RowBits.of_row ⟨"XOR", 0xF00F, 0x8003⟩ (by decide) rfl (fun _ => packNibbles_fixed_ends (by decide) x.isLt y.isLt (by decide))

theorem RowBits.addReg (x y : Reg) : RowBits.Statement (.addReg x y) :=
  RowBits.of_row ⟨"ADD_reg", 0xF00F, 0x8004⟩ (by decide) rfl (fun _ => packNibbles_fixed_ends (by decide) x.isLt y.isLt (by decide))

theorem RowBits.sub (x y : Reg) : RowBits.Statement (.sub x y) :=
  RowBits.of_row ⟨"SUB", 0xF00F, 0x8005⟩ (by decide) rfl (fun _ => packNibbles_fixed_ends (by decide) x.isLt y.isLt (by decide))

theorem RowBits.shr (x : Reg) : RowBits.Statement (.shr x) :=
  RowBits.of_row ⟨"SHR", 0xF00F, 0x8006⟩ (by decide) rfl (fun _ => packNibbles_fixed_ends (by decide) x.isLt (by decide) (by decide))

theorem RowBits.subn (x y : Reg) : RowBits.Statement (.subn x y) :=
  RowBits.of_row ⟨"SUBN", 0xF00F, 0x8007⟩ (by decide) rfl (fun _ => packNibbles_fixed_ends (by decide) x.isLt y.isLt (by decide))

theorem RowBits.shl (x : Reg) : RowBits.Statement (.shl x) :=
  RowBits.of_row ⟨"SHL", 0xF00F, 0x800E⟩ (by decide) rfl (fun _ => packNibbles_fixed_ends (by decide) x.isLt (by decide) (by decide))

theorem RowBits.sneReg (x y : Reg) : RowBits.Statement (.sneReg x y) :=
  RowBits.of_row ⟨"SNE_reg", 0xF00F, 0x9000⟩ (by decide) rfl (fun _ => packNibbles_fixed_ends (by decide) x.isLt y.isLt (by decide))

theorem RowBits.ldI (nnn : Addr12) : RowBits.Statement (.ldI nnn) :=
  RowBits.of_row ⟨"LD_I", 0xF000, 0xA000⟩ (by decide) rfl (fun _ => packNnn_fixed nnn (by decide))

theorem RowBits.jpV0 (nnn : Addr12) : RowBits.Statement (.jpV0 nnn) :=
  RowBits.of_row ⟨"JP_V0", 0xF000, 0xB000⟩ (by decide) rfl (fun _ => packNnn_fixed nnn (by decide))

theorem RowBits.rnd (x : Reg) (kk : Byte) : RowBits.Statement (.rnd x kk) :=
  RowBits.of_row ⟨"RND", 0xF000, 0xC000⟩ (by decide) rfl (fun _ => packKk_fixed_nibble x (by decide) kk.isLt)

theorem RowBits.drw (x y : Reg) (n : Nat) : RowBits.Statement (.drw x y n) :=
  RowBits.of_row ⟨"DRW", 0xF000, 0xD000⟩ (by decide) rfl (fun hw => packNibbles_fixed_first (by decide) x.isLt y.isLt (by simp [Instr.wellFormed, heightFits] at hw; omega))

theorem RowBits.skp (x : Reg) : RowBits.Statement (.skp x) :=
  RowBits.of_row ⟨"SKP", 0xF0FF, 0xE09E⟩ (by decide) rfl (fun _ => packKk_fixed_byte x (by decide) (by decide))

theorem RowBits.sknp (x : Reg) : RowBits.Statement (.sknp x) :=
  RowBits.of_row ⟨"SKNP", 0xF0FF, 0xE0A1⟩ (by decide) rfl (fun _ => packKk_fixed_byte x (by decide) (by decide))

theorem RowBits.ldVDt (x : Reg) : RowBits.Statement (.ldVDt x) :=
  RowBits.of_row ⟨"LD_V_DT", 0xF0FF, 0xF007⟩ (by decide) rfl (fun _ => packKk_fixed_byte x (by decide) (by decide))

theorem RowBits.ldVK (x : Reg) : RowBits.Statement (.ldVK x) :=
  RowBits.of_row ⟨"LD_V_K", 0xF0FF, 0xF00A⟩ (by decide) rfl (fun _ => packKk_fixed_byte x (by decide) (by decide))

theorem RowBits.ldDtV (x : Reg) : RowBits.Statement (.ldDtV x) :=
  RowBits.of_row ⟨"LD_DT_V", 0xF0FF, 0xF015⟩ (by decide) rfl (fun _ => packKk_fixed_byte x (by decide) (by decide))

theorem RowBits.ldStV (x : Reg) : RowBits.Statement (.ldStV x) :=
  RowBits.of_row ⟨"LD_ST_V", 0xF0FF, 0xF018⟩ (by decide) rfl (fun _ => packKk_fixed_byte x (by decide) (by decide))

theorem RowBits.addI (x : Reg) : RowBits.Statement (.addI x) :=
  RowBits.of_row ⟨"ADD_I", 0xF0FF, 0xF01E⟩ (by decide) rfl (fun _ => packKk_fixed_byte x (by decide) (by decide))

theorem RowBits.ldF (x : Reg) : RowBits.Statement (.ldF x) :=
  RowBits.of_row ⟨"LD_F", 0xF0FF, 0xF029⟩ (by decide) rfl (fun _ => packKk_fixed_byte x (by decide) (by decide))

theorem RowBits.ldB (x : Reg) : RowBits.Statement (.ldB x) :=
  RowBits.of_row ⟨"LD_B", 0xF0FF, 0xF033⟩ (by decide) rfl (fun _ => packKk_fixed_byte x (by decide) (by decide))

theorem RowBits.ldMemV (x : Reg) : RowBits.Statement (.ldMemV x) :=
  RowBits.of_row ⟨"LD_MEM_V", 0xF0FF, 0xF055⟩ (by decide) rfl (fun _ => packKk_fixed_byte x (by decide) (by decide))

theorem RowBits.ldVMem (x : Reg) : RowBits.Statement (.ldVMem x) :=
  RowBits.of_row ⟨"LD_V_MEM", 0xF0FF, 0xF065⟩ (by decide) rfl (fun _ => packKk_fixed_byte x (by decide) (by decide))

end Sys2Proof.Laws
end

