-- ==== Sys2Proof/Tests/Slice0.lean ====
section
/-! SUPPORT. The model's own tests: words written out from spec/30_encoding.md, single steps whose results stand in spec/95_test_vectors.md (the vector's number is in the docstring), and the witnesses that the hypotheses of the obligations can be met. -/

namespace Sys2Proof.Tests

open Sys2Proof.Machine Sys2Proof.Safety

/-! ### Helpers -/

/-- The launch state with a word at 0x200. -/
def launch (w : Word) : State := placeWord State.reset w

/-- The launch state with two registers given. -/
def regs2 (w : Word) (x : Reg) (a : Byte) (y : Reg) (b : Byte) : State := ((launch w).writeV x a).writeV y b

/-- What a step with a given rnd byte leaves, as the test reads it. -/
def after {α : Type} (s : State) (f : State → α) (rnd : Byte := 0) : Option α :=
  match stepWith rnd s with
  | .next t => some (f t)
  | .fault _ => none
  | .refused _ => none

/-- What a transaction leaves, as the test reads it. -/
def afterTr {α : Type} (tr : Transaction) (s : State) (f : State → α) : Option α :=
  match transact tr s with
  | .next t => some (f t)
  | .fault _ => none
  | .refused _ => none

/-- The state EXECUTE begins in: PC is one word past the instruction. -/
def fetched : State := { State.reset with pc := 0x202, loaded := true }

/-- The launch state HALTED(STACK_UNDERFLOW). -/
def halted : State := { launch 0x00E0 with status := .halted .stackUnderflow }

/-- The bytes of memory from a on, count of them. -/
def bytesAt (a count : Nat) (t : State) : List Byte := (List.range count).map (fun k => t.readByte (a + k))

/-! ### Well-formedness -/

/-- n of Dxyn has four bits (30_encoding.md R72). -/
theorem test_wellFormed_refuses_height_16 : (Instr.drw 1 2 16).wellFormed = false := by decide
theorem test_wellFormed_accepts_height_15 : (Instr.drw 1 2 15).wellFormed = true := by decide

/-! ### Decoding: every constructor, one word written out bit by bit -/

theorem test_decode_display :
    decodeWord 0b0000000011100000 = .instr .cls ∧
    decodeWord 0b1101000100101111 = .instr (.drw 1 2 15) := by decide
theorem test_decode_control :
    decodeWord 0b0000000011101110 = .instr .ret ∧ decodeWord 0b0001001000110100 = .instr (.jp 0x234) ∧
    decodeWord 0b0010001000010000 = .instr (.call 0x210) ∧ decodeWord 0b1011001100000000 = .instr (.jpV0 0x300) := by
  decide
theorem test_decode_skips :
    decodeWord 0b0011001101000010 = .instr (.seImm 3 0x42) ∧ decodeWord 0b0100001101000010 = .instr (.sneImm 3 0x42) ∧
    decodeWord 0b0101000100100000 = .instr (.seReg 1 2) ∧ decodeWord 0b1001000100100000 = .instr (.sneReg 1 2) := by
  decide
theorem test_decode_immediates :
    decodeWord 0b0110010100010010 = .instr (.ldImm 5 0x12) ∧ decodeWord 0b0111000100000001 = .instr (.addImm 1 1) ∧
    decodeWord 0b1100001100001111 = .instr (.rnd 3 0x0F) := by decide
theorem test_decode_register_alu :
    decodeWord 0b1000000100100001 = .instr (.orReg 1 2) ∧ decodeWord 0b1000000100100010 = .instr (.andReg 1 2) ∧
    decodeWord 0b1000000100100011 = .instr (.xorReg 1 2) ∧ decodeWord 0b1000000100100100 = .instr (.addReg 1 2) ∧
    decodeWord 0b1000000100100101 = .instr (.sub 1 2) ∧ decodeWord 0b1000000111110110 = .instr (.shr 1) ∧
    decodeWord 0b1000000100100111 = .instr (.subn 1 2) ∧ decodeWord 0b1000000100001110 = .instr (.shl 1) := by
  decide
theorem test_decode_index_memory :
    decodeWord 0b1010001100000000 = .instr (.ldI 0x300) ∧ decodeWord 0b1111001000011110 = .instr (.addI 2) ∧
    decodeWord 0b1111000000101001 = .instr (.ldF 0) ∧ decodeWord 0b1111000000110011 = .instr (.ldB 0) ∧
    decodeWord 0b1111001001010101 = .instr (.ldMemV 2) ∧ decodeWord 0b1111001001100101 = .instr (.ldVMem 2) := by
  decide
theorem test_decode_keys_timers :
    decodeWord 0b1110000110011110 = .instr (.skp 1) ∧ decodeWord 0b1110000110100001 = .instr (.sknp 1) ∧
    decodeWord 0b1111001100000111 = .instr (.ldVDt 3) ∧ decodeWord 0b1111010100001010 = .instr (.ldVK 5) ∧
    decodeWord 0b1111001100010101 = .instr (.ldDtV 3) ∧ decodeWord 0b1111001100011000 = .instr (.ldStV 3) := by
  decide
/-- T2, T4 to T7: words of every family that are no instruction. -/
theorem test_decode_refuses :
    [0x8010, 0x0123, 0x01E0, 0x5121, 0xE1A2, 0xF1FF, 0x9121, 0x800F].all
      (fun w => (decodeTableWord 16 w).isNone) = true := by decide
theorem test_decodeTableWord : decodeTableWord 16 0x8124 = some (.addReg 1 2) := by decide

/-! ### The step cycle -/

/-- T1 -/
theorem test_step_fetches_big_endian :
    after (launch 0x1234) (fun t => (t.opcode, t.pc)) = some (0x1234, 0x234) := by decide
/-- T2 -/
theorem test_decode_error_continues :
    after (launch 0x8010) (fun t => (t.reply, t.pc, t.opcode, t.status)) =
      some (.error (.decodeError 0x8010), 0x202, 0x8010, .running) := by decide
/-- T3 -/
theorem test_decode_error_halts :
    after { launch 0x8010 with config := { defaultConfig with decodeErrorPolicy := .halts } }
      (fun t => (t.reply.code, t.pc, t.status)) = some (some 1, 0x202, .halted .decodeError) := by decide
/-- T8 -/
theorem test_fetch_past_memory :
    after { launch 0x00E0 with pc := 0xFFF } (fun t => (t.reply, t.pc, t.opcode, t.status)) =
      some (.error (.outOfBounds 0x1000 .fetch), 0xFFF, 0, .halted .outOfBounds) := by decide
/-- T10 -/
theorem test_halted_step : stepWith 0 halted = .next { halted with reply := .stillHalted .stackUnderflow } := rfl
/-- T12 -/
theorem test_odd_pc :
    after (placeWord { State.reset with pc := 0x201 } 0x6A55) (fun t => (t.readV 0xA, t.pc)) = some (0x55, 0x203) := by
  decide
/-- A state whose PC no fetch can use is made ready at 0x200 (log 7). -/
theorem test_withFetchWord :
    after (State.withFetchWord { State.reset with pc := 0x1000, status := .halted .outOfBounds } 16 0x6512)
      (fun t => (t.readV 5, t.pc)) = some (0x12, 0x202) := by decide

/-! ### Display -/

/-- D1 -/
theorem test_cls :
    after { launch 0x00E0 with pix := Display.toggle (Vector.replicate 32 0) 3 4 } (fun t => t.pix) =
      some (Vector.replicate 32 0) := by decide
/-- S7: the rows wrap to row 0 and the columns to column 0. -/
theorem test_drw_wraps :
    after { (regs2 0xD123 1 60 2 30).writeByte 0x300 0xFF with i := 0x300 }
      (fun t => (t.pix[30], t.pix[29], t.readV 15)) = some (0xF00000000000000F, 0, 0) := by decide
/-- D6: the coordinates are read before VF is written. -/
theorem test_drw_flag_last :
    after { (regs2 0xDF21 15 10 2 5).writeByte 0x300 0x80 with i := 0x300 }
      (fun t => (Display.pixel t.pix 10 5, t.readV 15)) = some (true, 0) := by decide

/-! ### Control transfer -/

/-- C2 -/
theorem test_ret :
    after { launch 0x00EE with sp := 1, stack := (Vector.replicate 16 0).set 0 0x206 }
      (fun t => (t.pc, t.sp)) = some (0x206, 0) := by decide
/-- C1 -/
theorem test_ret_underflow :
    after (launch 0x00EE) (fun t => (t.reply, t.pc, t.sp, t.status)) =
      some (.error .stackUnderflow, 0x200, 0, .halted .stackUnderflow) := by decide
/-- C6 -/
theorem test_call :
    after (placeWord { State.reset with pc := 0x204 } 0x2210) (fun t => (t.stack[0], t.sp, t.pc)) =
      some (0x206, 1, 0x210) := by decide
/-- C7 -/
theorem test_call_overflow :
    after { launch 0x2300 with sp := 16 } (fun t => (t.reply, t.pc, t.sp)) =
      some (.error .stackOverflow, 0x200, 16) := by decide
/-- C15 -/
theorem test_jpV0 : after (regs2 0xBFFF 0 0xFF 5 0x80) (fun t => t.pc) = some 0x10FE := by decide
/-- C8 -/
theorem test_seImm :
    after (regs2 0x3342 3 0x42 0 0) (fun t => t.pc) = some 0x204 ∧
    after (regs2 0x3343 3 0x42 0 0) (fun t => t.pc) = some 0x202 := by decide
/-- C9 -/
theorem test_sneImm :
    after (regs2 0x4342 3 0x42 0 0) (fun t => t.pc) = some 0x202 ∧
    after (regs2 0x4300 3 0x42 0 0) (fun t => t.pc) = some 0x204 := by decide
/-- C10, C12 -/
theorem test_seReg :
    after (regs2 0x5120 1 7 2 7) (fun t => t.pc) = some 0x204 ∧
    after (regs2 0x5120 1 7 2 8) (fun t => t.pc) = some 0x202 := by decide
/-- C12, C13 -/
theorem test_sneReg :
    after (regs2 0x9120 1 7 2 8) (fun t => t.pc) = some 0x204 ∧
    after (regs2 0x9110 1 7 2 8) (fun t => t.pc) = some 0x202 := by decide

/-! ### Registers and arithmetic -/

/-- A37 -/
theorem test_ldImm : after (regs2 0x6512 5 0x99 0 0) (fun t => t.readV 5) = some 0x12 := by decide
/-- A39 -/
theorem test_addImm : after (regs2 0x7101 1 0xFF 15 5) (fun t => (t.readV 1, t.readV 15)) = some (0, 5) := by decide
/-- A24 to A26 -/
theorem test_logic :
    after (regs2 0x8121 1 0xF0 2 0x0C) (fun t => t.readV 1) = some 0xFC ∧
    after (regs2 0x8122 1 0xF0 2 0x3C) (fun t => t.readV 1) = some 0x30 ∧
    after (regs2 0x8123 1 0xF0 2 0x3C) (fun t => t.readV 1) = some 0xCC := by decide
/-- A1 -/
theorem test_add_carry : after (regs2 0x8124 1 0xFF 2 1) (fun t => (t.readV 1, t.readV 15)) = some (0, 1) := by decide
/-- A29 -/
theorem test_add_flag_wins : after (regs2 0x8F24 15 0xFF 2 1) (fun t => t.readV 15) = some 1 := by decide
/-- A7 -/
theorem test_sub_borrow : after (regs2 0x8125 1 3 2 5) (fun t => (t.readV 1, t.readV 15)) = some (0xFE, 0) := by decide
/-- A8 -/
theorem test_sub_equal : after (regs2 0x8125 1 7 2 7) (fun t => (t.readV 1, t.readV 15)) = some (0, 1) := by decide
/-- A17 -/
theorem test_subn_borrow : after (regs2 0x8127 1 5 2 3) (fun t => (t.readV 1, t.readV 15)) = some (0xFE, 0) := by decide
/-- A15 with y = F, and A35 -/
theorem test_shr :
    after (regs2 0x81F6 1 0 15 0x7F) (fun t => (t.readV 1, t.readV 15)) = some (0, 0) ∧
    after (regs2 0x8F06 15 3 0 0) (fun t => t.readV 15) = some 1 := by decide
/-- A20 -/
theorem test_shl : after (regs2 0x810E 1 0x81 0 0) (fun t => (t.readV 1, t.readV 15)) = some (2, 1) := by decide
/-- A41 -/
theorem test_rnd : after (launch 0xC30F) (fun t => t.readV 3) 0xAB = some 0x0B := by decide

/-! ### Index and memory -/

/-- M2 -/
theorem test_ldI : after (launch 0xAFFF) (fun t => t.i) = some 0x0FFF := by decide
/-- M4 -/
theorem test_addI_wraps :
    after { regs2 0xF21E 2 2 15 7 with i := 0xFFFF } (fun t => (t.i, t.readV 15)) = some (1, 7) := by decide
/-- M8 -/
theorem test_ldF : after (regs2 0xF029 0 0x1A 1 0) (fun t => t.i) = some 130 := by decide
/-- M11 -/
theorem test_ldB :
    after { regs2 0xF033 0 123 1 0 with i := 4093 } (bytesAt 4093 3) = some [1, 2, 3] := by decide
/-- M12 -/
theorem test_ldB_out_of_bounds :
    after { regs2 0xF033 0 123 1 0 with i := 4094 } (fun t => (t.reply, t.pc, bytesAt 4094 2 t)) =
      some (.error (.outOfBounds 4096 .data), 0x200, [0, 0]) := by decide
/-- M13 -/
theorem test_ldMemV :
    after { (regs2 0xF255 0 1 1 2).writeV 2 3 with i := 0x300 } (fun t => (bytesAt 0x300 4 t, t.i)) =
      some ([1, 2, 3, 0], 0x300) := by decide
/-- M20: the font is the default's. -/
theorem test_ldVMem :
    after (launch 0xF465) (fun t => (List.range 6).map (fun r => t.readV (Fin.ofNat 16 r))) =
      some [0xF0, 0x90, 0x90, 0x90, 0xF0, 0] := by decide
/-- M19 -/
theorem test_ldVMem_out_of_bounds :
    after { regs2 0xF165 0 7 1 8 with i := 0xFFF } (fun t => (t.reply, t.readV 0, t.readV 1)) =
      some (.error (.outOfBounds 0x1000 .data), 7, 8) := by decide

/-! ### Keys, timers and the host's transactions -/

/-- K1, K2 -/
theorem test_skp :
    after { regs2 0xE19E 1 5 0 0 with keys := (Vector.replicate 16 false).set 5 true } (fun t => t.pc) = some 0x204 ∧
    after (regs2 0xE19E 1 5 0 0) (fun t => t.pc) = some 0x202 := by decide
/-- K5 -/
theorem test_skp_no_key :
    after (regs2 0xE19E 1 0x10 0 0) (fun t => (t.reply, t.pc)) = some (.error (.outOfBounds 16 .key), 0x200) := by decide
/-- K3, K5 -/
theorem test_sknp :
    after (regs2 0xE1A1 1 5 0 0) (fun t => t.pc) = some 0x204 ∧
    after (regs2 0xE1A1 1 0x10 0 0) (fun t => t.status) = some (.halted .outOfBounds) := by decide
/-- K6 -/
theorem test_ldVDt :
    after { launch 0xF307 with dt := 0x3C } (fun t => (t.readV 3, t.dt)) = some (0x3C, 0x3C) := by decide
/-- K7, K8 -/
theorem test_ldVK :
    after (launch 0xF50A) (fun t => (t.pc, t.reply)) = some (0x200, .ok) ∧
    after { launch 0xF50A with keys := ((Vector.replicate 16 false).set 9 true).set 3 true }
      (fun t => (t.readV 5, t.pc)) = some (3, 0x202) := by decide
/-- K10 -/
theorem test_ldDtV : after (regs2 0xF315 3 0x3C 0 0) (fun t => t.dt) = some 0x3C := by decide
/-- K11 -/
theorem test_ldStV : after (regs2 0xF318 3 2 0 0) (fun t => (t.st, t.reply)) = some (2, .ok) := by decide
/-- T11 -/
theorem test_tick_while_halted :
    afterTr .tickTimers { halted with dt := 3, st := 1 } (fun t => (t.dt, t.st, t.reply)) =
      some (2, 0, .beep true) := by decide
/-- K12 -/
theorem test_tick_at_zero :
    afterTr .tickTimers fetched (fun t => (t.dt, t.st, t.reply)) = some (0, 0, .beep false) := by decide
/-- K17 -/
theorem test_setKey_16 :
    transact (.setKey 16 true) fetched = .next { fetched with reply := .invalidArgument 16 } := rfl
/-- L5 -/
theorem test_load :
    afterTr (.load [0xAB, 0xCD]) State.reset (fun t => (bytesAt 0x200 3 t, t.reply)) = some ([0xAB, 0xCD, 0], .ok) := by
  decide
/-- `initialize` leaves HALTED. -/
theorem test_initialize : afterTr .init halted (fun t => (t.status, t.pc, t.loaded)) = some (.running, 0x200, false) := by
  decide
theorem test_reset_memory_canonical : Memory.wf State.reset.config.font State.reset.mem = true := by decide
/-- A byte written back to its reset contents leaves no entry. -/
theorem test_memory_canonical : ((State.reset.writeByte 3 7).writeByte 3 0x90).mem = [] := by decide

/-! ### Witnesses: each obligation's hypotheses, all met together by one concrete input, at the ends of their ranges -/

theorem witness_DecodeEncodeRoundTrip : (Instr.drw 0xF 0 15).wellFormed = true ∧ Instr.cls.wellFormed = true := by decide
theorem witness_EncodeDecodeKeepsWord :
    decodeWord 0x81F6 = .instr (.shr 1) ∧ decodeWord 0x81FE = .instr (.shl 1) ∧
    decodeWord 0x81F7 = .instr (.subn 1 15) := by decide
theorem witness_DecoderFollowsOpcodeTable :
    decodeWord 0xF065 = .instr (.ldVMem 0) ∧ (⟨"LD_V_MEM", 0xF0FF, 0xF065⟩ : OpcodeRow) ∈ opcodeTable ∧
    (⟨"LD_V_MEM", 0xF0FF, 0xF065⟩ : OpcodeRow).fits 0xF065 = true := by decide
/-- One word under each clause of the table, and one under none. -/
theorem witness_UnrecognizedWordsAreTheTables :
    (∀ w ∈ [(0x0123 : Word), 0x5121, 0x8010, 0x9121, 0xE1A2, 0xF1FF], ∀ i, decodeWord w ≠ .instr i) ∧
    decodeWord 0x5120 = .instr (.seReg 1 2) := by
  refine ⟨fun w hw i => ?_, by decide⟩
  simp only [List.mem_cons, List.not_mem_nil, or_false] at hw
  rcases hw with rfl | rfl | rfl | rfl | rfl | rfl <;> (intro h; cases h)
/-- RowDecodes: each row's pattern carries the row's fixed bits. -/
theorem witness_RowDecodes : opcodeTable.all (fun row => row.fits row.pattern) = true := by decide
/-- The last word that can be fetched stands at 0xFFE. -/
theorem witness_StepRunsDecodedInstruction :
    CanFetch (placeWord { State.reset with pc := 0xFFE } 0x6001) ∧
    decodeWord (wordAtPc (placeWord { State.reset with pc := 0xFFE } 0x6001)) = .instr (.ldImm 0 1) := by decide
theorem witness_UnrecognizedWordFollowsPolicy (p : DecodeErrorPolicy) :
    let s : State := { launch 0x8010 with config := { defaultConfig with decodeErrorPolicy := p } }
    CanFetch s ∧ decodeWord (wordAtPc s) = .unrecognized .eightFamily ∧ s.config.decodeErrorPolicy = p := by
  cases p <;> decide
theorem witness_HaltedStepChangesNothing : halted.loaded = true ∧ halted.status = .halted .stackUnderflow := by decide
/-- PC = 4094 is fetched, 4095 and 4096 are not. -/
theorem witness_FetchReadsTwoBytesOrHalts :
    let s (pc : Word) : State := { launch 0x00E0 with pc := pc }
    (s 0xFFE).pc.toNat + 1 ≤ 4095 ∧
    ((s 0xFFF).loaded = true ∧ (s 0xFFF).status = .running ∧ 4095 < (s 0xFFF).pc.toNat + 1) ∧
    (s 0x1000).loaded = true ∧ (s 0x1000).status = .running ∧ 4095 < (s 0x1000).pc.toNat + 1 := by decide
theorem witness_BootOrderIsEnforced : fetched.loaded = true ∧ State.reset.loaded = false := by decide
theorem witness_LoadedStepAlwaysAnswers : (launch 0x00E0).loaded = true := by decide
/-- An error in EXECUTE, and one of FETCH. -/
theorem witness_FatalStepRollsBack :
    after (launch 0x00EE) (fun t => t.reply) = some (.error .stackUnderflow) ∧
    after { launch 0x00E0 with pc := 0xFFF } (fun t => t.reply) = some (.error (.outOfBounds 4096 .fetch)) ∧
    (launch 0x00EE).loaded = true ∧ (launch 0x00EE).status = .running := by decide
theorem witness_ErrorsComeFromNamedInstructions :
    (∃ t, exec .ret fetched = .next t ∧ t.reply = .error .stackUnderflow) ∧
    (∃ t, exec (.call 0x300) { fetched with sp := 16 } = .next t ∧ t.reply = .error .stackOverflow) ∧
    (∃ t, exec (.drw 1 2 3) { fetched with i := 0xFFE } = .next t ∧ t.reply = .error (.outOfBounds 4096 .data)) ∧
    (∃ t, exec (.ldB 1) { fetched with i := 4094 } = .next t ∧ t.reply = .error (.outOfBounds 4096 .data)) ∧
    (∃ t, exec (.ldVMem 15) { fetched with i := 4081 } = .next t ∧ t.reply = .error (.outOfBounds 4096 .data)) ∧
    ∃ t, exec (.skp 1) (fetched.writeV 1 16) = .next t ∧ t.reply = .error (.outOfBounds 16 .key) :=
  ⟨⟨_, rfl, rfl⟩, ⟨_, rfl, rfl⟩, ⟨_, rfl, by decide⟩, ⟨_, rfl, by decide⟩, ⟨_, rfl, by decide⟩, ⟨_, rfl, by decide⟩⟩
/-- Fifteen rows that end at 4095, and no row at all with I past memory. -/
theorem witness_DrawTogglesCoveredCells :
    (∀ r < 15, State.indexAddr { fetched with i := 4081 } r ≤ 4095) ∧
    (∀ r < 0, State.indexAddr { fetched with i := 0xFFFF } r ≤ 4095) := by decide
/-- D4: row 2 is the first outside; and a sprite whose first row is. -/
theorem witness_DrawOutOfBoundsDrawsNothing :
    ((2 < 3 ∧ 4095 < State.indexAddr { fetched with i := 0xFFE } 2) ∧
      ∀ q < 2, State.indexAddr { fetched with i := 0xFFE } q ≤ 4095) ∧
    ((0 < 1 ∧ 4095 < State.indexAddr { fetched with i := 0x1000 } 0) ∧
      ∀ q < 0, State.indexAddr { fetched with i := 0x1000 } q ≤ 4095) := by decide
/-- The second draw begins in the state the first left. -/
theorem witness_DrawTwiceRestoresDisplay :
    ∃ t, exec (.drw 1 2 5) fetched = .next t ∧ (∀ r < 5, fetched.indexAddr r ≤ 4095) ∧
      t.i = fetched.i ∧ SameMemory fetched t ∧ t.readV 1 = fetched.readV 1 ∧ t.readV 2 = fetched.readV 2 :=
  ⟨_, rfl, by decide, rfl, fun _ => rfl, by decide, by decide⟩
theorem witness_PixelsChangeOnlyByDisplayOperations :
    (∃ t, exec (.drw 1 2 5) fetched = .next t ∧ t.pix ≠ fetched.pix) ∧
    ∃ t, transact (.step 0) (launch 0xD125) = .next t ∧ t.pix ≠ (launch 0xD125).pix :=
  ⟨⟨_, rfl, by decide⟩, ⟨_, rfl, by decide⟩⟩
/-- SP = 15 pushes, 16 overflows; SP = 1 and 16 pop, 0 underflows. -/
theorem witness_CallAndReturn :
    (15 : Fin 17).val < 16 ∧ (16 : Fin 17).val = 16 ∧ (1 : Fin 17).val = (0 : Fin 16).val + 1 ∧
    (16 : Fin 17).val = (15 : Fin 16).val + 1 ∧ (0 : Fin 17).val = 0 := by decide
theorem witness_CallThenReturnComesBack :
    ∃ t, exec (.call 0x300) { fetched with sp := 15 } = .next t ∧ (15 : Fin 17).val < 16 := ⟨_, rfl, by decide⟩
/-- Words of 5xyN and 9xyN with N ≠ 0. -/
theorem witness_RegisterSkipsAdvancePc :
    (bits 0x5121 15 12 = 5 ∧ bits 0x5121 3 0 ≠ 0) ∧ bits 0x912F 15 12 = 9 ∧ bits 0x912F 3 0 ≠ 0 := by decide
/-- Destinations that are not VF, and a sum on each side of 256. -/
theorem witness_FlagInstructions : (0 : Reg) ≠ 15 ∧ (14 : Reg) ≠ 15 ∧ 0xFF + 0x01 ≥ 256 ∧ ¬ 0xFF + 0x00 ≥ 256 := by
  decide
/-- a + 2 at 4095 and at 4096, and a itself at 4096. -/
theorem witness_StoreDigitsWritesThreeBytes :
    State.indexAddr { fetched with i := 4093 } 0 = 4093 ∧ 4093 + 2 ≤ 4095 ∧
    State.indexAddr { fetched with i := 4094 } 0 = 4094 ∧ 4095 < 4094 + 2 ∧
    State.indexAddr { fetched with i := 4096 } 0 = 4096 ∧ 4095 < 4096 + 2 := by decide
/-- The block of sixteen registers that ends at 4095, and at 4096; one byte at 4096. -/
theorem witness_RegisterBlocks :
    State.indexAddr { fetched with i := 4080 } 0 = 4080 ∧ 4080 + (15 : Reg).val ≤ 4095 ∧ (15 : Reg) ≤ 15 ∧
    State.indexAddr { fetched with i := 4081 } 0 = 4081 ∧ 4095 < 4081 + (15 : Reg).val ∧
    State.indexAddr { fetched with i := 4096 } 0 = 4096 ∧ 4095 < 4096 + (0 : Reg).val := by decide
theorem witness_ByteWrittenIsReadBack : 4095 ≤ 4095 ∧ 0 ≤ 4095 ∧ 4095 < 4096 := by decide
/-- M21, a block that ends on the first byte of the next word, and digits that start or end on it; the last word and the last block of memory. -/
theorem witness_StoredBytesAreFetchedNext :
    fetched.pc.toNat + 1 ≤ 4095 ∧ State.indexAddr { fetched with i := 0x202 } (1 : Reg).val ≤ 4095 ∧
    State.indexAddr { fetched with i := 0x201 } (1 : Reg).val ≤ 4095 ∧
    State.indexAddr { fetched with i := 0x202 } 2 ≤ 4095 ∧ State.indexAddr { fetched with i := 0x200 } 2 ≤ 4095 ∧
    (0xFFE : Word).toNat + 1 ≤ 4095 ∧ State.indexAddr { fetched with i := 4080 } (15 : Reg).val ≤ 4095 := by decide
/-- Digits 1 2 3 of V1 at 0x201 leave 02 03 at the next word, at 0x203 leave 00 01 there. -/
theorem test_byteAfterStore :
    let s : State := { fetched.writeV 1 123 with i := 0x201 }
    let u : State := { fetched.writeV 1 123 with i := 0x203 }
    (byteAfterStore s (bcdDigits (s.readV 1)) 0x202, byteAfterStore s (bcdDigits (s.readV 1)) 0x203) = (2, 3) ∧
    (byteAfterStore u (bcdDigits (u.readV 1)) 0x202, byteAfterStore u (bcdDigits (u.readV 1)) 0x203) = (0, 1) := by
  decide
/-- Key number 15 and key number 16. -/
theorem witness_KeySkipsReadTheLevel :
    ((fetched.writeV 1 15).readV 1).toNat = (15 : Fin 16).val ∧ 15 < ((fetched.writeV 1 16).readV 1).toNat := by decide
theorem witness_SoundTimerSetBeepsOnce :
    fetched.loaded = true ∧ fetched.readV 1 = 0 ∧ (fetched.writeV 1 255).readV 1 ≠ 0 := by decide
/-- No key, and Fx0A at the last place that can be fetched. -/
theorem witness_WaitingStep :
    CanFetch (placeWord { State.reset with pc := 0xFFE } 0xF50A) ∧
    decodeWord (wordAtPc (placeWord { State.reset with pc := 0xFFE } 0xF50A)) = .instr (.ldVK 5) ∧
    ∀ k : Fin 16, (placeWord { State.reset with pc := 0xFFE } 0xF50A).keys[k.val] = false := by decide
/-- No key; only key 15; keys 3 and 9. -/
theorem witness_WaitForKeyRewindsOrTakesLowest :
    (∀ k : Fin 16, fetched.keys[k.val] = false) ∧
    (fetched.keys.set 15 true)[(15 : Fin 16).val] = true ∧
    (∀ j : Fin 16, j < 15 → (fetched.keys.set 15 true)[j.val] = false) ∧
    ((fetched.keys.set 9 true).set 3 true)[(3 : Fin 16).val] = true ∧
    ∀ j : Fin 16, j < 3 → ((fetched.keys.set 9 true).set 3 true)[j.val] = false := by decide
theorem witness_TickCountsBothTimersDown : fetched.loaded = true ∧ halted.loaded = true := by decide
/-- S8's ticks with a key change between them. -/
theorem witness_OneBeepPerCountdown :
    (∃ t, transactAll [.tickTimers, .setKey 1 true, .tickTimers, .tickTimers] { fetched with st := 2 } = .next t) ∧
    (∀ tr ∈ [Transaction.tickTimers, .setKey 1 true, .tickTimers, .tickTimers],
      tr = .tickTimers ∨ ∃ index pressed, tr = .setKey index pressed) := by
  refine ⟨⟨_, rfl⟩, fun tr h => ?_⟩
  simp only [List.mem_cons, List.not_mem_nil, or_false] at h
  rcases h with rfl | rfl | rfl | rfl
  · exact .inl rfl
  · exact .inr ⟨1, true, rfl⟩
  · exact .inl rfl
  · exact .inl rfl
/-- Key 15 exists, 16 does not. -/
theorem witness_SetKeyStoresLevel : fetched.loaded = true ∧ (15 : Fin 16).val = 15 ∧ 15 < 16 := by decide
/-- A ROM of 3584 bytes and one of 3585. -/
theorem witness_LoadCopiesRom (b : Byte) :
    State.reset.loaded = false ∧ (List.replicate 3584 b).length ≤ 3584 ∧ 3584 < (List.replicate 3585 b).length := by
  refine ⟨rfl, ?_, ?_⟩ <;> simp only [List.length_replicate] <;> omega
/-- Each kind of state, written by an instruction that may. -/
theorem witness_OnlyNamedInstructionsWrite :
    (∃ t, exec (.ldImm 14 1) fetched = .next t ∧ t.readV 14 ≠ fetched.readV 14) ∧
    (∃ t, exec (.jp 1) fetched = .next t ∧ t.pc ≠ fetched.pc) ∧
    (∃ t, exec (.drw 1 2 5) fetched = .next t ∧ t.pix ≠ fetched.pix) ∧
    (∃ t, exec .ret fetched = .next t ∧ t.status ≠ fetched.status ∧ t.pc ≠ fetched.pc) ∧
    (∃ t, exec (.ldI 1) fetched = .next t ∧ t.i ≠ fetched.i) ∧
    (∃ t, exec (.call 1) fetched = .next t ∧ t.stack ≠ fetched.stack ∧ t.sp ≠ fetched.sp) ∧
    (∃ t, exec (.ldDtV 1) (fetched.writeV 1 9) = .next t ∧ t.dt ≠ fetched.dt) ∧
    (∃ t, exec (.ldStV 1) (fetched.writeV 1 9) = .next t ∧ t.st ≠ fetched.st) ∧
    ∃ t, exec (.ldB 1) { fetched with i := 0x300, v := Vector.replicate 16 9 } = .next t ∧ t.mem ≠ fetched.mem :=
  ⟨⟨_, rfl, by decide⟩, ⟨_, rfl, by decide⟩, ⟨_, rfl, by decide⟩, ⟨_, rfl, by decide, by decide⟩,
    ⟨_, rfl, by decide⟩, ⟨_, rfl, by decide, by decide⟩, ⟨_, rfl, by decide⟩, ⟨_, rfl, by decide⟩, ⟨_, rfl, by decide⟩⟩
theorem witness_OnlyNamedInstructionsWriteFlag :
    ∃ t, exec (.sub 1 2) fetched = .next t ∧ t.readV 15 ≠ fetched.readV 15 := ⟨_, rfl, by decide⟩
theorem witness_UnreadStateDoesNotInfluence :
    (∀ x, Instr.ldVDt 1 ≠ .ldStV x) ∧ ∀ x kk, Instr.ldVDt 1 ≠ .rnd x kk :=
  ⟨fun _ h => Instr.noConfusion h, fun _ _ h => Instr.noConfusion h⟩
theorem witness_HaltedUntilInitialize :
    halted.loaded = true ∧ halted.status = .halted .stackUnderflow ∧
    (∃ t, transact .tickTimers halted = .next t) ∧ Transaction.tickTimers ≠ .init ∧
    ∀ index pressed, Transaction.tickTimers ≠ .setKey index pressed :=
  ⟨rfl, rfl, ⟨_, rfl⟩, by decide, fun _ _ h => Transaction.noConfusion h⟩
theorem witness_ParametersNeverChange :
    ∃ t, transactAll [.init, .load [0x60, 0x01], .setKey 1 true, .step 7, .tickTimers] State.reset = .next t :=
  ⟨_, rfl⟩
/-- The launch state meets the invariant, and so does one with PC and a stack entry at their bounds. -/
theorem witness_StepKeepsInvariant :
    Inv (launch 0x6512) ∧ (∃ t, step (launch 0x6512) = .next t) ∧
    Inv { launch 0x6512 with pc := 0x10FE, stack := Vector.replicate 16 0x1000 } ∧
    ∃ t, step { launch 0x6512 with pc := 0x10FE, stack := Vector.replicate 16 0x1000 } = .next t :=
  ⟨by decide, ⟨_, rfl⟩, by decide, ⟨_, rfl⟩⟩
theorem witness_TransactionSequencesKeepInvariant :
    Inv State.reset ∧ ∃ t, transactAll [.load [0x60, 0x01], .step 7] State.reset = .next t :=
  ⟨by decide, ⟨_, rfl⟩⟩
theorem witness_PlacedWordRunsNext : 0xFF65 < 65536 ∧ decodeTableWord 16 0xFF65 = some (.ldVMem 15) := by decide

end Sys2Proof.Tests
end

/-! # Proofs: the display (spec/41_display.md)

What each layer of the machine (an effect, `exec`, a decode error, a step, a host transaction) does to the
display, and from it the statements on 00E0 and on who may change a pixel. -/

namespace Sys2Proof.Machine

open Sys2Proof.Safety

/-! ### The display port -/

/-- The port's index splits back into column and row, for a column is below 64 (R122). -/
theorem displayPort_pixel (s : State) (x : Fin 64) (y : Fin 32) (h : x.val + 64 * y.val < 2048) :
    displayPort s ⟨x.val + 64 * y.val, h⟩ = Display.pixel s.pix x y := by
  have hx : Fin.ofNat 64 (x.val + 64 * y.val) = x := by
    apply Fin.ext; simp only [Fin.ofNat]; omega
  have hy : Fin.ofNat 32 ((x.val + 64 * y.val) / 64) = y := by
    apply Fin.ext; simp only [Fin.ofNat]; omega
  simp only [displayPort, hx, hy]

/-! ### Who keeps the display -/

/-- The instructions that may write the display (R122). -/
def WritesDisplay (i : Instr) : Prop := i = .cls ∨ ∃ x y n, i = .drw x y n

/-- The effects of 00E0 and Dxyn alone name the display. -/
theorem Effect.writesDisplay {i : Instr} {s t : State} (h : Effect i s t) (hne : t.pix ≠ s.pix) :
    WritesDisplay i := by
  cases h with
  | clear hi => exact .inl hi
  | draw hi d f => exact .inr hi
  | _ => exact absurd rfl hne

/-- A fatal error in EXECUTE draws nothing (40_step_cycle.md R107), so a changed display is an effect's. -/
theorem exec_writesDisplay {i : Instr} {s t : State} (h : exec i s = .next t) (hne : t.pix ≠ s.pix) :
    WritesDisplay i := by
  rcases exec_next s h with heff | ⟨e, rfl, -⟩
  · exact heff.writesDisplay hne
  · exact absurd rfl hne

/-- A decode error keeps the display under either policy (40_step_cycle.md R106). -/
theorem takeDecodeError_pix {w : Word} {s t : State} (h : takeDecodeError w s = .next t) : t.pix = s.pix := by
  rcases takeDecodeError_cases s w with ⟨-, hr⟩ | ⟨-, hr⟩ <;>
  · rw [hr] at h; cases h; rfl

/-- A step that changes the display has fetched 00E0 or Dxyn: every other way it ends keeps the display. -/
theorem stepWith_writesDisplay {rnd : Byte} {s t : State} (h : stepWith rnd s = .next t)
    (hne : t.pix ≠ s.pix) : ∃ i, decodeWord (wordAtPc s) = .instr i ∧ WritesDisplay i := by
  cases hl : s.loaded with
  | false => rw [stepWith_unloaded s rnd hl] at h; cases h
  | true =>
    rcases stepWith_cases s rnd hl with
      ⟨k, -, hr⟩ | ⟨a, -, -, -, hr⟩ | ⟨-, -, ⟨why, -, hr⟩ | ⟨i, hd, hr⟩⟩
    · rw [hr] at h; cases h; exact absurd rfl hne
    · rw [hr] at h; cases h; exact absurd rfl hne
    · exact absurd (takeDecodeError_pix (hr.symm.trans h)) hne
    · exact ⟨i, hd, exec_writesDisplay (hr.symm.trans h) hne⟩

theorem load_pix {bytes : List Byte} {s t : State} (h : load bytes s = .next t) : t.pix = s.pix := by
  unfold load at h
  split at h
  · cases h
  · split at h <;> cases h <;> rfl

theorem setKey_pix {index : Nat} {pressed : Bool} {s t : State} (h : setKey index pressed s = .next t) :
    t.pix = s.pix := by
  unfold setKey at h
  split at h
  · split at h <;> cases h <;> rfl
  · cases h

theorem tickTimers_pix {s t : State} (h : tickTimers s = .next t) : t.pix = s.pix := by
  unfold tickTimers at h
  split at h <;> cases h
  rfl

/-- Of the host's transactions the reset and a step of 00E0 or Dxyn alone change the display (R122). -/
theorem transact_writesDisplay {tr : Transaction} {s t : State} (h : transact tr s = .next t)
    (hne : t.pix ≠ s.pix) :
    tr = .init ∨ ∃ rnd, tr = .step rnd ∧ ∃ i, decodeWord (wordAtPc s) = .instr i ∧ WritesDisplay i := by
  cases tr with
  | init => exact .inl rfl
  | step rnd => exact .inr ⟨rnd, rfl, stepWith_writesDisplay h hne⟩
  | load bytes => exact absurd (load_pix h) hne
  | setKey index pressed => exact absurd (setKey_pix h) hne
  | tickTimers => exact absurd (tickTimers_pix h) hne

/-! ### The statements -/

/-- Settles O18: the port's index arithmetic, and the inversion of exec and of the transactions. -/
theorem pixelsChangeOnlyByDisplayOperations : Obligations.PixelsChangeOnlyByDisplayOperations := by
  refine ⟨displayPort_pixel, fun i s t => exec_writesDisplay, fun tr s t h hne => ?_⟩
  rcases transact_writesDisplay h hne with hinit | ⟨rnd, htr, i, hd, rfl | ⟨x, y, n, rfl⟩⟩
  · exact .inl hinit
  · exact .inr ⟨rnd, htr, .inl hd⟩
  · exact .inr ⟨rnd, htr, .inr ⟨x, y, n, hd⟩⟩

/-- The row's mask fixes all 16 bits, so 00E0 is its only word (30_encoding.md R74). -/
theorem rowDecodes_cls : RowDecodes 0xFFFF 0x00E0 (fun _ => .cls) := by
  intro w hw
  rw [and_FFFF] at hw
  subst hw
  decide

/-- Settles O14: the row's one word decodes to CLS, and CLS puts the cleared display and nothing else. -/
theorem clearScreenClearsEveryPixel : Obligations.ClearScreenClearsEveryPixel := by
  refine ⟨rowDecodes_cls, fun s => ⟨{ s with pix := Display.clear, reply := .ok }, rfl, ?_, ?_⟩⟩
  · exact ⟨rfl, State.readByte_congr rfl rfl⟩
  · exact Display.pixel_clear

end Sys2Proof.Machine

/-! # Proofs: jumps and immediate skips (spec/42_control_flow.md)

The instructions that move PC alone all end in `complete` of a `jump` or of a `skipIf`. What these two do to the
state is said once; each instruction then says which of them it is. -/

namespace Sys2Proof.Machine

open Sys2Proof.Safety

/-! ### Rows whose mask fixes the first nibble only -/

theorem firstNibble_of_and_F000 {w p : Word} (h : w &&& 0xF000 = p) : w.toNat / 4096 = p.toNat / 4096 := by
  have := fixed_F000 h
  omega

theorem rowDecodes_jp : RowDecodes 0xF000 0x1000 (fun w => .jp (fieldNnn w)) :=
  fun _ hw => decodeWord_jp (firstNibble_of_and_F000 hw)

theorem rowDecodes_seImm : RowDecodes 0xF000 0x3000 (fun w => .seImm (fieldX w) (fieldKk w)) :=
  fun _ hw => decodeWord_seImm (firstNibble_of_and_F000 hw)

theorem rowDecodes_sneImm : RowDecodes 0xF000 0x4000 (fun w => .sneImm (fieldX w) (fieldKk w)) :=
  fun _ hw => decodeWord_sneImm (firstNibble_of_and_F000 hw)

/-! ### Jumping and skipping -/

section
variable (s : State)

theorem onlyPc_jump (target : Word) : OnlyPc s { s.jump target with reply := .ok } :=
  ⟨rfl, State.readByte_congr rfl rfl⟩

theorem complete_jump (target : Word) :
    ∃ t, complete (s.jump target) = .next t ∧ OnlyPc s t ∧ t.pc = target :=
  ⟨_, complete_eq _, onlyPc_jump s target, rfl⟩

/-- A skip is a jump over the next instruction, or one to where PC already is. -/
theorem skipIf_eq_jump (c : Bool) : s.skipIf c = s.jump (if c then s.pc + 2 else s.pc) := by
  cases c <;> rfl

/-- PC wraps modulo 2^16 (42_control_flow.md R138). -/
theorem complete_skipIf (c : Bool) :
    ∃ t, complete (s.skipIf c) = .next t ∧ OnlyPc s t ∧
      t.pc.toNat = if c then (s.pc.toNat + 2) % 2 ^ 16 else s.pc.toNat := by
  obtain ⟨t, hrun, hframe, hpc⟩ := complete_jump s (if c then s.pc + 2 else s.pc)
  refine ⟨t, skipIf_eq_jump s c ▸ hrun, hframe, ?_⟩
  rw [hpc]
  cases c
  · rfl
  · exact BitVec.toNat_add s.pc 2

theorem exec_jp (nnn : Addr12) : exec (.jp nnn) s = complete (s.jump (zext16 nnn)) := rfl

theorem exec_seImm (x : Reg) (kk : Byte) :
    exec (.seImm x kk) s = complete (s.skipIf (s.readV x == kk)) := rfl

theorem exec_sneImm (x : Reg) (kk : Byte) :
    exec (.sneImm x kk) s = complete (s.skipIf (s.readV x != kk)) := rfl

end

/-- The literal is not reduced by the widening to 16 bits. -/
@[simp] theorem zext16_toNat (nnn : Addr12) : (zext16 nnn).toNat = nnn.toNat :=
  BitVec.toNat_setWidth_of_le (by decide)

/-! ### The statements -/

/-- Settles O19: JP is the jump to the literal, widened to 16 bits. -/
theorem jumpGoesToAddress : Obligations.JumpGoesToAddress := by
  refine ⟨rowDecodes_jp, fun s nnn => ?_⟩
  obtain ⟨t, hrun, hframe, hpc⟩ := complete_jump s (zext16 nnn)
  exact ⟨t, (exec_jp s nnn).trans hrun, hframe, by rw [hpc, zext16_toNat]⟩

/-- Settles O24: each is `skipIf`, SE_imm on the test Vx = kk and SNE_imm on its negation. -/
theorem immediateSkipsAdvancePc : Obligations.ImmediateSkipsAdvancePc := by
  refine ⟨rowDecodes_seImm, rowDecodes_sneImm, fun s x kk => ⟨?_, ?_⟩⟩
  · simpa only [exec_seImm, beq_iff_eq] using complete_skipIf s (s.readV x == kk)
  · simpa only [exec_sneImm, bne_iff_ne, ne_eq, ite_not] using complete_skipIf s (s.readV x != kk)

end Sys2Proof.Machine

/-! # Proofs: immediate loads and adds, and the logical instructions (spec/43_register_alu.md)

These five instructions all end in `complete` of one register write. What that does to the state is said once;
each instruction then says which byte it writes. -/

namespace Sys2Proof.Machine

open Sys2Proof.Safety

/-! ### The rows -/

theorem rowDecodes_ldImm : RowDecodes 0xF000 0x6000 (fun w => .ldImm (fieldX w) (fieldKk w)) :=
  fun _ hw => decodeWord_ldImm (firstNibble_of_and_F000 hw)

theorem rowDecodes_addImm : RowDecodes 0xF000 0x7000 (fun w => .addImm (fieldX w) (fieldKk w)) :=
  fun _ hw => decodeWord_addImm (firstNibble_of_and_F000 hw)

/-- The counterpart of `firstNibble_of_and_F000` for the rows whose mask fixes the last nibble too. -/
theorem nibbles_of_and_F00F {w p : Word} (h : w &&& 0xF00F = p) :
    w.toNat / 4096 = p.toNat / 4096 ∧ w.toNat % 16 = p.toNat % 16 := by
  have := fixed_F00F h
  omega

theorem rowDecodes_orReg : RowDecodes 0xF00F 0x8001 (fun w => .orReg (fieldX w) (fieldY w)) :=
  fun _ hw => (nibbles_of_and_F00F hw).elim decodeWord_orReg

theorem rowDecodes_andReg : RowDecodes 0xF00F 0x8002 (fun w => .andReg (fieldX w) (fieldY w)) :=
  fun _ hw => (nibbles_of_and_F00F hw).elim decodeWord_andReg

theorem rowDecodes_xorReg : RowDecodes 0xF00F 0x8003 (fun w => .xorReg (fieldX w) (fieldY w)) :=
  fun _ hw => (nibbles_of_and_F00F hw).elim decodeWord_xorReg

/-! ### Writing one register -/

section
variable (s : State) (x y : Reg)

/-- VF is framed like any register, and written when it is the destination. -/
theorem onlyRegs_writeV (b : Byte) : OnlyRegs s { s.writeV x b with reply := .ok } [x] :=
  ⟨rfl, fun _ hr => s.readV_writeV_ne b (List.ne_of_not_mem_cons hr), State.readByte_congr rfl rfl⟩

theorem complete_writeV (b : Byte) :
    ∃ t, complete (s.writeV x b) = .next t ∧ OnlyRegs s t [x] ∧ t.readV x = b :=
  ⟨_, complete_eq _, onlyRegs_writeV s x b, s.readV_writeV_same x b⟩

/-- The write of a byte known by its bits. -/
theorem complete_writeV_bits {b : Byte} {bit : Nat → Bool} (hb : ∀ k, b.getLsbD k = bit k) :
    ∃ t, complete (s.writeV x b) = .next t ∧ OnlyRegs s t [x] ∧ ∀ k < 8, (t.readV x).getLsbD k = bit k := by
  obtain ⟨t, hrun, hframe, hval⟩ := complete_writeV s x b
  exact ⟨t, hrun, hframe, fun k _ => by rw [hval, hb]⟩

theorem exec_ldImm (kk : Byte) : exec (.ldImm x kk) s = complete (s.writeV x kk) := rfl

theorem exec_addImm (kk : Byte) : exec (.addImm x kk) s = complete (s.writeV x (s.readV x + kk)) := rfl

theorem exec_orReg : exec (.orReg x y) s = complete (s.writeV x (s.readV x ||| s.readV y)) := rfl

theorem exec_andReg : exec (.andReg x y) s = complete (s.writeV x (s.readV x &&& s.readV y)) := rfl

theorem exec_xorReg : exec (.xorReg x y) s = complete (s.writeV x (s.readV x ^^^ s.readV y)) := rfl

end

/-! ### The statements -/

/-- Settles O26: LD_imm is the write of the literal. -/
theorem loadImmediateSetsRegister : Obligations.LoadImmediateSetsRegister := by
  refine ⟨rowDecodes_ldImm, fun s x kk => ?_⟩
  rw [exec_ldImm]
  exact complete_writeV s x kk

/-- Settles O27: ADD_imm is the write of a byte sum, which wraps. -/
theorem addImmediateWraps : Obligations.AddImmediateWraps := by
  refine ⟨rowDecodes_addImm, fun s x kk => ?_⟩
  obtain ⟨t, hrun, hframe, hval⟩ := complete_writeV s x (s.readV x + kk)
  exact ⟨t, (exec_addImm s x kk).trans hrun, hframe, by rw [hval, BitVec.toNat_add]⟩

/-- Settles O28: each is the write of a byte whose bits are those of the two operands combined. -/
theorem logicalInstructionsWorkBitwise : Obligations.LogicalInstructionsWorkBitwise := by
  refine ⟨rowDecodes_orReg, rowDecodes_andReg, rowDecodes_xorReg, fun s x y => ?_⟩
  rw [exec_orReg, exec_andReg, exec_xorReg]
  exact ⟨complete_writeV_bits s x fun _ => BitVec.getLsbD_or,
    complete_writeV_bits s x fun _ => BitVec.getLsbD_and,
    complete_writeV_bits s x fun _ => BitVec.getLsbD_xor⟩

end Sys2Proof.Machine

/-! # Proofs: the delay timer and the wait for a key (spec/45_keys_timers.md)

Fx07 is one register write and Fx15 one write of DT. Fx0A is one of two instructions already known, by what
`lowestPressed` answers: a jump back to its own address, or one register write. -/

namespace Sys2Proof.Machine

open Sys2Proof.Safety

/-! ### The rows -/

/-- The counterpart of `firstNibble_of_and_F000` for the rows whose mask fixes the last byte too. -/
theorem nibbleAndByte_of_and_F0FF {w p : Word} (h : w &&& 0xF0FF = p) :
    w.toNat / 4096 = p.toNat / 4096 ∧ w.toNat % 256 = p.toNat % 256 := by
  have := fixed_F0FF h
  omega

theorem rowDecodes_ldVDt : RowDecodes 0xF0FF 0xF007 (fun w => .ldVDt (fieldX w)) :=
  fun _ hw => (nibbleAndByte_of_and_F0FF hw).elim decodeWord_ldVDt

theorem rowDecodes_ldVK : RowDecodes 0xF0FF 0xF00A (fun w => .ldVK (fieldX w)) :=
  fun _ hw => (nibbleAndByte_of_and_F0FF hw).elim decodeWord_ldVK

theorem rowDecodes_ldDtV : RowDecodes 0xF0FF 0xF015 (fun w => .ldDtV (fieldX w)) :=
  fun _ hw => (nibbleAndByte_of_and_F0FF hw).elim decodeWord_ldDtV

/-! ### The lowest pressed key -/

/-- A pressed key with no pressed key below it is the lowest one: a second such key would lie below it or above it. -/
theorem lowestPressed_eq_some {keys : Vector Bool 16} {k : Fin 16} (hk : keys[k.val] = true)
    (hlow : ∀ j : Fin 16, j < k → keys[j.val] = false) : lowestPressed keys = some k := by
  cases h : lowestPressed keys with
  | none => exact absurd hk (by simp [(lowestPressed_none keys).mp h k])
  | some m =>
    obtain ⟨hm, hmlow⟩ := lowestPressed_some h
    rcases lt_trichotomy m k with hmk | rfl | hkm
    · exact absurd hm (by simp [hlow m hmk])
    · rfl
    · exact absurd hk (by simp [hmlow k hkm])

/-! ### The instructions -/

section
variable (s : State) (x : Reg)

theorem exec_ldVDt : exec (.ldVDt x) s = complete (s.writeV x s.dt) := rfl

theorem exec_ldDtV : exec (.ldDtV x) s = .next { s with dt := s.readV x, reply := .ok } := rfl

theorem onlyDelayTimer_setDt (b : Byte) : OnlyDelayTimer s { s with dt := b, reply := .ok } :=
  ⟨rfl, State.readByte_congr rfl rfl⟩

theorem exec_ldVK_noKey (h : ∀ k : Fin 16, s.keys[k.val] = false) :
    exec (.ldVK x) s = complete (s.jump (s.pc - 2)) := by
  simp only [exec, execLdVK, (lowestPressed_none s.keys).mpr h, State.instrAddr]

theorem exec_ldVK_key {k : Fin 16} (hk : s.keys[k.val] = true)
    (hlow : ∀ j : Fin 16, j < k → s.keys[j.val] = false) :
    exec (.ldVK x) s = complete (s.writeV x (BitVec.ofNat 8 k.val)) := by
  simp only [exec, execLdVK, lowestPressed_eq_some hk hlow]

end

/-! ### The waiting step -/

/-- A step that finds an instruction word runs it on the state after fetch and advance (40_step_cycle.md R109). -/
theorem stepWith_instr {s : State} {i : Instr} (rnd : Byte) (hf : CanFetch s)
    (hd : decodeWord (wordAtPc s) = .instr i) : stepWith rnd s = exec i (advance (wordAtPc s) rnd s) := by
  obtain ⟨hl, hrun, hpc⟩ := hf
  rcases stepWith_cases s rnd hl with
    ⟨k, hk, -⟩ | ⟨a, -, hout, -⟩ | ⟨-, -, ⟨why, hwhy, -⟩ | ⟨j, hj, hstep⟩⟩
  · rw [hrun] at hk; cases hk
  · omega
  · rw [hd] at hwhy; cases hwhy
  · rw [hd] at hj; cases hj; exact hstep

/-- The word at PC depends on the memory, the parameters and PC only. -/
theorem wordAtPc_congr {s t : State} (hc : t.config = s.config) (hm : t.mem = s.mem) (hpc : t.pc = s.pc) :
    wordAtPc t = wordAtPc s := by
  simp only [wordAtPc, hpc, State.readByte_congr hc hm]

/-- The rewind undoes the advance exactly, for both are modulo 2^16 (45_keys_timers.md R193). -/
theorem stepWith_ldVK_noKey {s : State} {x : Reg} (rnd : Byte) (hf : CanFetch s)
    (hd : decodeWord (wordAtPc s) = .instr (.ldVK x)) (h : ∀ k : Fin 16, s.keys[k.val] = false) :
    stepWith rnd s = .next { advance (wordAtPc s) rnd s with pc := s.pc, reply := .ok } := by
  have hback : s.pc + 2 - 2 = s.pc := BitVec.add_sub_cancel s.pc 2
  rw [stepWith_instr rnd hf hd, exec_ldVK_noKey (advance (wordAtPc s) rnd s) x h, complete_eq, advance_pc, hback]
  rfl

/-! ### The statements -/

/-- Settles O43: by whether a lowest pressed key exists, Fx0A is a jump or a register write; the waiting step
changes nothing the next fetch reads. -/
theorem waitForKeyRewindsOrTakesLowest : Obligations.WaitForKeyRewindsOrTakesLowest := by
  refine ⟨rowDecodes_ldVK, fun s x hno => ?_, fun s x k hk hlow => ?_, fun s x rnd hf hd hno => ?_⟩
  · rw [exec_ldVK_noKey s x hno]
    exact complete_jump s (s.pc - 2)
  · obtain ⟨t, hrun, hframe, hval⟩ := complete_writeV s x (BitVec.ofNat 8 k.val)
    refine ⟨t, (exec_ldVK_key s x hk hlow).trans hrun, hframe, ?_⟩
    rw [hval, BitVec.toNat_ofNat]
    omega
  · exact ⟨_, stepWith_ldVK_noKey rnd hf hd hno, rfl, rfl, hf, wordAtPc_congr rfl rfl rfl⟩

/-- Settles O41: LD_V_DT is the write of DT to Vx, LD_DT_V the write of Vx to DT. -/
theorem delayTimerMoves : Obligations.DelayTimerMoves := by
  refine ⟨rowDecodes_ldVDt, rowDecodes_ldDtV, fun s x => ⟨?_, ?_⟩⟩
  · rw [exec_ldVDt]
    exact complete_writeV s x s.dt
  · exact ⟨_, exec_ldDtV s x, onlyDelayTimer_setDt s (s.readV x), rfl⟩

end Sys2Proof.Machine

/-! # Proofs: the reset (spec/70_reset_and_hazards.md)

`State.reset` and the transaction `init` both give the reset state of some parameters, `State.resetWith`. How that
state reads is said once, for all parameters. -/

namespace Sys2Proof.Machine

open Sys2Proof.Safety

/-! ### Bytes nothing has written -/

section
variable (font : Font) {a : Nat}

theorem resetByte_of_lt (h : a < 80) : resetByte font a = font[a] := dif_pos h

theorem resetByte_of_le (h : 80 ≤ a) : resetByte font a = 0 := dif_neg (Nat.not_lt.mpr h)

end

/-! ### The reset state -/

section
variable (c : Config)

@[simp] theorem State.resetWith_readV (r : Reg) : (State.resetWith c).readV r = 0 :=
  Vector.getElem_replicate r.isLt

@[simp] theorem State.resetWith_stack (j : Fin 16) : (State.resetWith c).stack[j.val] = 0 :=
  Vector.getElem_replicate j.isLt

@[simp] theorem State.resetWith_keys (k : Fin 16) : (State.resetWith c).keys[k.val] = false :=
  Vector.getElem_replicate k.isLt

/-- The reset memory lists no byte, so all of it reads as unwritten. -/
@[simp] theorem State.resetWith_readByte (a : Nat) : (State.resetWith c).readByte a = resetByte c.font a := rfl

/-- The display is all dark, as 00E0 leaves it. -/
@[simp] theorem State.resetWith_pix : (State.resetWith c).pix = Display.clear := rfl

theorem State.resetWith_atReset : AtReset c.font (State.resetWith c) := by
  have hfont (a : Nat) (h : a < 80) : (State.resetWith c).readByte a = c.font[a] := by
    rw [State.resetWith_readByte, resetByte_of_lt c.font h]
  have hrest (a : Nat) (h : 80 ≤ a) : (State.resetWith c).readByte a = 0 := by
    rw [State.resetWith_readByte, resetByte_of_le c.font h]
  have hpix (x : Fin 64) (y : Fin 32) : Display.pixel (State.resetWith c).pix x y = false := by
    rw [State.resetWith_pix, Display.pixel_clear]
  exact ⟨State.resetWith_readV c, rfl, rfl, State.resetWith_stack c, rfl, rfl, rfl, hfont, hrest, hpix,
    State.resetWith_keys c, rfl, rfl⟩

end

/-- `resetMachine` keeps the count of the rnd bytes taken (log 11), which `AtReset` does not read. -/
theorem resetMachine_atReset (s : State) : AtReset s.config.font (resetMachine s) :=
  State.resetWith_atReset s.config

theorem transact_init (s : State) : transact .init s = .next (resetMachine s) := rfl

/-! ### The statements -/

/-- Settles O48: `State.reset` is the reset state of the default parameters, and the transaction `init` gives that
of the machine's own, whatever else the state holds. -/
theorem initializeGivesResetState : Obligations.InitializeGivesResetState :=
  ⟨State.resetWith_atReset defaultConfig, fun s => ⟨resetMachine s, transact_init s, resetMachine_atReset s⟩⟩

end Sys2Proof.Machine

/-! # Proofs: the encoder and the decoder undo each other (spec/30_encoding.md)

The encoder packs a word in one of three shapes. For each shape: the decoder finds the packed fields again, and
packing the fields of a word gives the word again. -/

namespace Sys2Proof

/-! ### Decoding a packed word -/

section
variable {op : Nat} (hop : op < 16)
include hop

/-- Words of op and nnn; `mk` builds the instruction of the row. -/
theorem decodeWord_packNnn {mk : Addr12 → Instr} (nnn : Addr12)
    (hrow : ∀ {w : Word}, w.toNat / 4096 = op → decodeWord w = .instr (mk (fieldNnn w))) :
    decodeWord (packNnn op nnn) = .instr (mk nnn) := by
  have hw := packNnn_toNat nnn hop
  have hnnn := nnn.isLt
  rw [hrow (by omega), fieldNnn_eq (nnn := nnn) (by omega)]

/-- Words of op, x and an operand kk. -/
theorem decodeWord_packKk {mk : Reg → Byte → Instr} (x : Reg) (kk : Byte)
    (hrow : ∀ {w : Word}, w.toNat / 4096 = op → decodeWord w = .instr (mk (fieldX w) (fieldKk w))) :
    decodeWord (packKk op x kk.toNat) = .instr (mk x kk) := by
  have hw := packKk_toNat x hop kk.isLt
  have hkk := kk.isLt
  have hx := x.isLt
  rw [hrow (by omega), fieldX_eq (x := x) (by omega), fieldKk_eq (kk := kk) (by omega)]

/-- Words of op and x, the last byte fixed. -/
theorem decodeWord_packKk_fixed {mk : Reg → Instr} (x : Reg) {b : Nat} (hb : b < 256)
    (hrow : ∀ {w : Word}, w.toNat / 4096 = op → w.toNat % 256 = b → decodeWord w = .instr (mk (fieldX w))) :
    decodeWord (packKk op x b) = .instr (mk x) := by
  have hw := packKk_toNat x hop hb
  have hx := x.isLt
  rw [hrow (by omega) (by omega), fieldX_eq (x := x) (by omega)]

/-- Words of op, x and y, the last nibble fixed; an instruction without y takes any. -/
theorem decodeWord_packNibbles {mk : Reg → Reg → Instr} (x y : Reg) {n : Nat} (hn : n < 16)
    (hrow : ∀ {w : Word}, w.toNat / 4096 = op → w.toNat % 16 = n →
      decodeWord w = .instr (mk (fieldX w) (fieldY w))) :
    decodeWord (packNibbles op x y n) = .instr (mk x y) := by
  have hw := packNibbles_toNat hop x.isLt y.isLt hn
  have hx := x.isLt
  have hy := y.isLt
  rw [hrow (by omega) (by omega), fieldX_eq (x := x) (by omega), fieldY_eq (y := y) (by omega)]

end

/-- Dxyn, the one row whose last nibble is an operand. -/
theorem decodeWord_packNibbles_drw (x y : Reg) {n : Nat} (hn : n ≤ 15) :
    decodeWord (packNibbles 0xD x y n) = .instr (.drw x y n) := by
  have hw := packNibbles_toNat (op := 0xD) (by decide) x.isLt y.isLt (Nat.lt_succ_of_le hn)
  have hx := x.isLt
  have hy := y.isLt
  rw [decodeWord_drw (by omega), fieldX_eq (x := x) (by omega), fieldY_eq (y := y) (by omega), fieldN_eq, hw]
  congr 2
  omega

/-- The one operand `wellFormed` bounds. -/
theorem wellFormed_drw (x y : Reg) (n : Nat) : (Instr.drw x y n).wellFormed = true ↔ n ≤ 15 := decide_eq_true_iff

/-- Settles O1: by the shape of the instruction's word. -/
theorem decodeEncodeRoundTrip : Obligations.DecodeEncodeRoundTrip := by
  intro i hwf
  cases i with
  | cls => decide
  | ret => decide
  | jp nnn => exact decodeWord_packNnn (by decide) nnn decodeWord_jp
  | call nnn => exact decodeWord_packNnn (by decide) nnn decodeWord_call
  | ldI nnn => exact decodeWord_packNnn (by decide) nnn decodeWord_ldI
  | jpV0 nnn => exact decodeWord_packNnn (by decide) nnn decodeWord_jpV0
  | seImm x kk => exact decodeWord_packKk (by decide) x kk decodeWord_seImm
  | sneImm x kk => exact decodeWord_packKk (by decide) x kk decodeWord_sneImm
  | ldImm x kk => exact decodeWord_packKk (by decide) x kk decodeWord_ldImm
  | addImm x kk => exact decodeWord_packKk (by decide) x kk decodeWord_addImm
  | rnd x kk => exact decodeWord_packKk (by decide) x kk decodeWord_rnd
  | seReg x y => exact decodeWord_packNibbles (by decide) x y (by decide) decodeWord_seReg
  | orReg x y => exact decodeWord_packNibbles (by decide) x y (by decide) decodeWord_orReg
  | andReg x y => exact decodeWord_packNibbles (by decide) x y (by decide) decodeWord_andReg
  | xorReg x y => exact decodeWord_packNibbles (by decide) x y (by decide) decodeWord_xorReg
  | addReg x y => exact decodeWord_packNibbles (by decide) x y (by decide) decodeWord_addReg
  | sub x y => exact decodeWord_packNibbles (by decide) x y (by decide) decodeWord_sub
  | shr x => exact decodeWord_packNibbles (mk := fun x _ => .shr x) (by decide) x 0 (by decide) decodeWord_shr
  | subn x y => exact decodeWord_packNibbles (by decide) x y (by decide) decodeWord_subn
  | shl x => exact decodeWord_packNibbles (mk := fun x _ => .shl x) (by decide) x 0 (by decide) decodeWord_shl
  | sneReg x y => exact decodeWord_packNibbles (by decide) x y (by decide) decodeWord_sneReg
  | drw x y n => exact decodeWord_packNibbles_drw x y ((wellFormed_drw x y n).mp hwf)
  | skp x => exact decodeWord_packKk_fixed (by decide) x (by decide) decodeWord_skp
  | sknp x => exact decodeWord_packKk_fixed (by decide) x (by decide) decodeWord_sknp
  | ldVDt x => exact decodeWord_packKk_fixed (by decide) x (by decide) decodeWord_ldVDt
  | ldVK x => exact decodeWord_packKk_fixed (by decide) x (by decide) decodeWord_ldVK
  | ldDtV x => exact decodeWord_packKk_fixed (by decide) x (by decide) decodeWord_ldDtV
  | ldStV x => exact decodeWord_packKk_fixed (by decide) x (by decide) decodeWord_ldStV
  | addI x => exact decodeWord_packKk_fixed (by decide) x (by decide) decodeWord_addI
  | ldF x => exact decodeWord_packKk_fixed (by decide) x (by decide) decodeWord_ldF
  | ldB x => exact decodeWord_packKk_fixed (by decide) x (by decide) decodeWord_ldB
  | ldMemV x => exact decodeWord_packKk_fixed (by decide) x (by decide) decodeWord_ldMemV
  | ldVMem x => exact decodeWord_packKk_fixed (by decide) x (by decide) decodeWord_ldVMem

/-! ### Packing the fields of a word -/

section
variable {w : Word} {op : Nat} (hop : w.toNat / 4096 = op)
include hop

theorem packNnn_fields : packNnn op (fieldNnn w) = w := by
  have hw := word_lt w
  apply BitVec.eq_of_toNat_eq
  rw [packNnn_toNat _ (by omega), fieldNnn_toNat]
  omega

theorem packKk_fields {b : Nat} (hb : w.toNat % 256 = b) : packKk op (fieldX w) b = w := by
  have hw := word_lt w
  apply BitVec.eq_of_toNat_eq
  rw [packKk_toNat _ (by omega) (by omega), fieldX_val]
  omega

theorem packKk_fieldKk : packKk op (fieldX w) (fieldKk w).toNat = w :=
  packKk_fields hop (fieldKk_toNat w).symm

theorem packNibbles_fields {n : Nat} (hn : w.toNat % 16 = n) :
    packNibbles op (fieldX w) (fieldY w) n = w := by
  have hw := word_lt w
  apply BitVec.eq_of_toNat_eq
  rw [packNibbles_toNat (by omega) (fieldX w).isLt (fieldY w).isLt (by omega), fieldX_val, fieldY_val]
  omega

/-- The words of the shifts: the y nibble is written 0 (30_encoding.md R77; log 9). -/
theorem packNibbles_without_y {n : Nat} (hn : w.toNat % 16 = n) :
    packNibbles op (fieldX w) 0 n = w &&& 0xFF0F := by
  have hw := word_lt w
  apply BitVec.eq_of_toNat_eq
  rw [packNibbles_toNat (by omega) (fieldX w).isLt (by decide) (by omega), and_FF0F_toNat, fieldX_val]
  omega

end

theorem fieldN_le (w : Word) : fieldN w ≤ 15 := by
  rw [fieldN_eq]; omega

/-- Settles O2: by the shape of the word the decoder accepted. -/
theorem encodeDecodeKeepsWord : Obligations.EncodeDecodeKeepsWord := by
  intro w i h
  have hinv := decodeWord_inv h
  cases i with
  | cls => exact ⟨rfl, BitVec.eq_of_toNat_eq hinv.symm⟩
  | ret => exact ⟨rfl, BitVec.eq_of_toNat_eq hinv.symm⟩
  | drw x y n =>
    obtain ⟨hop, rfl, rfl, rfl⟩ := hinv
    exact ⟨(wellFormed_drw _ _ _).mpr (fieldN_le w), packNibbles_fields hop (fieldN_eq w).symm⟩
  | shr x | shl x =>
    obtain ⟨hop, hn, rfl⟩ := hinv
    exact ⟨rfl, packNibbles_without_y hop hn⟩
  | jp nnn | call nnn | ldI nnn | jpV0 nnn =>
    obtain ⟨hop, rfl⟩ := hinv
    exact ⟨rfl, packNnn_fields hop⟩
  | seImm x kk | sneImm x kk | ldImm x kk | addImm x kk | rnd x kk =>
    obtain ⟨hop, rfl, rfl⟩ := hinv
    exact ⟨rfl, packKk_fieldKk hop⟩
  | seReg x y | orReg x y | andReg x y | xorReg x y | addReg x y | sub x y | subn x y | sneReg x y =>
    obtain ⟨hop, hn, rfl, rfl⟩ := hinv
    exact ⟨rfl, packNibbles_fields hop hn⟩
  | skp x | sknp x | ldVDt x | ldVK x | ldDtV x | ldStV x | addI x | ldF x | ldB x | ldMemV x | ldVMem x =>
    obtain ⟨hop, hb, rfl⟩ := hinv
    exact ⟨rfl, packKk_fields hop hb⟩

/-- Settles O5: each word evaluated. -/
theorem sampleWordsDecode : Obligations.SampleWordsDecode := by
  unfold Obligations.SampleWordsDecode
  decide

end Sys2Proof

/-! # Proofs: what a step and the host's transactions can do (spec/40_step_cycle.md, spec/60_exceptions.md)

One equation for each way a transaction ends and one inversion for each transaction. The statements on the step
cycle, the boot order and the timers and keys rest on them. -/

namespace Sys2Proof.Machine

open Sys2Proof.Safety

section
variable {s t : State}

/-! ### The transactions, forwards -/

theorem load_loaded (bytes : List Byte) (hl : s.loaded = true) : load bytes s = .refused .secondLoad := if_pos hl

theorem load_tooLong {bytes : List Byte} (hl : s.loaded = false) (h : maxRom < bytes.length) :
    load bytes s = .next { s with reply := .loadError bytes.length } := by
  simp [load, hl, h]

theorem load_ok {bytes : List Byte} (hl : s.loaded = false) (h : bytes.length ≤ maxRom) :
    load bytes s = .next { s with
      mem := Memory.putList s.config.font s.mem progBase bytes, loaded := true, reply := .ok } := by
  simp [load, hl, Nat.not_lt.mpr h]

theorem setKey_unloaded (index : Nat) (pressed : Bool) (hl : s.loaded = false) :
    setKey index pressed s = .refused .beforeLoad := by
  simp [setKey, hl]

theorem setKey_ok (k : Fin 16) (pressed : Bool) (hl : s.loaded = true) :
    setKey k.val pressed s = .next { s with keys := s.keys.set k.val pressed, reply := .ok } := by
  simp [setKey, hl]

theorem setKey_invalid {index : Nat} (pressed : Bool) (hl : s.loaded = true) (h : 15 < index) :
    setKey index pressed s = .next { s with reply := .invalidArgument index } := by
  simp [setKey, hl, show ¬ index < 16 by omega]

theorem tickTimers_unloaded (hl : s.loaded = false) : tickTimers s = .refused .beforeLoad := by
  simp [tickTimers, hl]

theorem tickTimers_loaded (hl : s.loaded = true) :
    tickTimers s = .next { s with dt := countDown s.dt, st := countDown s.st, reply := .beep (s.st == 1) } :=
  if_pos hl

/-! ### The transactions, backwards -/

theorem load_next {bytes : List Byte} (h : load bytes s = .next t) :
    s.loaded = false ∧ (t = { s with reply := .loadError bytes.length } ∨
      bytes.length ≤ maxRom ∧ t = { s with
        mem := Memory.putList s.config.font s.mem progBase bytes, loaded := true, reply := .ok }) := by
  rcases Bool.eq_false_or_eq_true s.loaded with hl | hl
  · rw [load_loaded bytes hl] at h; cases h
  · by_cases hlen : maxRom < bytes.length
    · rw [load_tooLong hl hlen] at h; cases h; exact ⟨hl, .inl rfl⟩
    · rw [load_ok hl (Nat.not_lt.mp hlen)] at h; cases h; exact ⟨hl, .inr ⟨Nat.not_lt.mp hlen, rfl⟩⟩

theorem setKey_next {index : Nat} {pressed : Bool} (h : setKey index pressed s = .next t) :
    s.loaded = true ∧ t = { s with keys := t.keys, reply := t.reply } ∧ ∀ b, t.reply ≠ .beep b := by
  rcases Bool.eq_false_or_eq_true s.loaded with hl | hl
  · by_cases hk : index < 16
    · rw [setKey_ok ⟨index, hk⟩ pressed hl] at h; cases h; exact ⟨hl, rfl, fun _ => Reply.noConfusion⟩
    · rw [setKey_invalid pressed hl (by omega)] at h; cases h; exact ⟨hl, rfl, fun _ => Reply.noConfusion⟩
  · rw [setKey_unloaded index pressed hl] at h; cases h

theorem tickTimers_next (h : tickTimers s = .next t) :
    s.loaded = true ∧
      t = { s with dt := countDown s.dt, st := countDown s.st, reply := .beep (s.st == 1) } := by
  rcases Bool.eq_false_or_eq_true s.loaded with hl | hl
  · rw [tickTimers_loaded hl] at h; cases h; exact ⟨hl, rfl⟩
  · rw [tickTimers_unloaded hl] at h; cases h

/-- The ways a step ends: HALTED already, a fetch error, a decode error, an instruction. -/
theorem stepWith_next {rnd : Byte} (h : stepWith rnd s = .next t) :
    s.loaded = true ∧
      ((∃ k, s.status = .halted k ∧ t = { s with reply := .stillHalted k }) ∨
      (s.status = .running ∧ 4095 < s.pc.toNat + 1 ∧ ∃ a, t = haltWith (.outOfBounds a .fetch) s) ∨
      (s.status = .running ∧ s.pc.toNat + 1 ≤ 4095 ∧
        ((∃ why, decodeWord (wordAtPc s) = .unrecognized why ∧
            takeDecodeError (wordAtPc s) (advance (wordAtPc s) rnd s) = .next t) ∨
          ∃ i, decodeWord (wordAtPc s) = .instr i ∧ exec i (advance (wordAtPc s) rnd s) = .next t))) := by
  rcases Bool.eq_false_or_eq_true s.loaded with hl | hl
  · refine ⟨hl, ?_⟩
    rcases stepWith_cases s rnd hl with
      ⟨k, hk, hr⟩ | ⟨a, hrun, hout, -, hr⟩ | ⟨hrun, hin, ⟨why, hd, hr⟩ | ⟨i, hd, hr⟩⟩ <;> rw [hr] at h
    · cases h; exact .inl ⟨k, hk, rfl⟩
    · cases h; exact .inr (.inl ⟨hrun, hout, a, rfl⟩)
    · exact .inr (.inr ⟨hrun, hin, .inl ⟨why, hd, h⟩⟩)
    · exact .inr (.inr ⟨hrun, hin, .inr ⟨i, hd, h⟩⟩)
  · rw [stepWith_unloaded s rnd hl] at h; cases h

/-- A decode error changes the reply and, under HALT, STATUS (40_step_cycle.md R106). -/
theorem takeDecodeError_next {w : Word} (h : takeDecodeError w s = .next t) :
    t = { s with status := t.status, reply := .error (.decodeError w) } ∧
      (t.status = s.status ∨ s.config.decodeErrorPolicy = .halts) := by
  rcases takeDecodeError_cases s w with ⟨-, hr⟩ | ⟨hp, hr⟩ <;> rw [hr] at h <;> cases h
  · exact ⟨rfl, .inl rfl⟩
  · exact ⟨rfl, .inr hp⟩

end

end Sys2Proof.Machine

/-! # Proofs: the invariant (spec/10_state.md R23, R31)

Each clause of the invariant can be broken by few operations: PC and the stack entries by control transfer, STATUS
by an error, memory by a store or a load. EXECUTE begins with PC between 2 and 0x1000, for the word was fetched
inside memory; that bound is what CALL pushes and what keeps the skips and the rewinds in range. -/

namespace Sys2Proof.Machine

open Sys2Proof.Safety

section
variable {i : Instr} {s t : State}

/-- PC as EXECUTE finds it, after a fetch inside memory. -/
abbrev PcAdvanced (s : State) : Prop := 2 ≤ s.pc.toNat ∧ s.pc.toNat ≤ 0x1000

theorem advance_pcAdvanced (w : Word) (rnd : Byte) (h : s.pc.toNat + 1 ≤ 4095) :
    PcAdvanced (advance w rnd s) := by
  have hpc : (advance w rnd s).pc.toNat = s.pc.toNat + 2 := by
    rw [advance_pc, BitVec.toNat_add, show (2 : Word).toNat = 2 from rfl]; omega
  unfold PcAdvanced
  omega

theorem PcAdvanced.add_two_le (h : PcAdvanced s) : (s.pc + 2).toNat ≤ 0x10FE := by
  obtain ⟨-, hhi⟩ := h
  rw [BitVec.toNat_add, show (2 : Word).toNat = 2 from rfl]; omega

theorem PcAdvanced.sub_two_le (h : PcAdvanced s) : (s.pc - 2).toNat ≤ 0x10FE := by
  obtain ⟨hlo, hhi⟩ := h
  rw [BitVec.toNat_sub_of_le (by simpa [BitVec.le_def] using hlo)]; omega

theorem zext16_le (nnn : Addr12) : (zext16 nnn).toNat ≤ 0x10FE := by
  have := nnn.isLt
  rw [zext16_toNat]; omega

/-- The sum is at most 0xFFF + 0xFF, so 16 bits hold it (42_control_flow.md R137). -/
@[simp] theorem offsetTarget_toNat (nnn : Addr12) (b : Byte) :
    (offsetTarget nnn b).toNat = nnn.toNat + b.toNat := by
  have := nnn.isLt
  have := b.isLt
  rw [offsetTarget, BitVec.toNat_ofNat]; omega

theorem offsetTarget_le (nnn : Addr12) (b : Byte) : (offsetTarget nnn b).toNat ≤ 0x10FE := by
  have := nnn.isLt
  have := b.isLt
  rw [offsetTarget_toNat]; omega

/-- A push of the advanced PC keeps the bound of the stack entries. -/
theorem stack_set_le {k : Nat} (hk : k < 16) (hpc : s.pc.toNat ≤ 0x1000)
    (hst : ∀ j : Fin 16, s.stack[j.val].toNat ≤ 0x1000) (j : Fin 16) :
    ((s.stack.set k s.pc)[j.val]).toNat ≤ 0x1000 := by
  rw [Vector.getElem_set]
  split
  · exact hpc
  · exact hst j

/-- A block of writes each of which is inside memory; an empty block may begin anywhere. -/
theorem Memory.wf_putList_of_inside (font : Font) {m : Memory} (hm : Memory.wf font m = true) {a : Nat}
    (bs : List Byte) (h : ∀ r < bs.length, a + r ≤ 4095) : Memory.wf font (Memory.putList font m a bs) = true := by
  cases bs with
  | nil => exact hm
  | cons b bs =>
    have hlast := h bs.length (by simp)
    exact Memory.wf_putList font hm (b :: bs) (by rw [List.length_cons]; omega)

theorem Effect.inv (h : Effect i s t) (hs : Inv s) (hpc : PcAdvanced s) : Inv t := by
  obtain ⟨hmem, hhalt, hle, hst⟩ := hs
  cases h with
  | pc target hi h =>
    refine ⟨hmem, hhalt, ?_, hst⟩
    rcases h with ⟨nnn, rfl⟩ | ⟨nnn, -, rfl⟩ | rfl | rfl | rfl
    · exact zext16_le nnn
    · exact offsetTarget_le nnn _
    · exact hle
    · exact hpc.add_two_le
    · exact hpc.sub_two_le
  | call nnn hi h => exact ⟨hmem, hhalt, zext16_le nnn, stack_set_le h hpc.2 hst⟩
  | ret hi h => exact ⟨hmem, hhalt, (hst ⟨s.sp.val - 1, by omega⟩).trans (by decide), hst⟩
  | bytes bs hi h => exact ⟨Memory.wf_putList_of_inside _ hmem bs h, hhalt, hle, hst⟩
  | _ => exact ⟨hmem, hhalt, hle, hst⟩

/-- EXECUTE raises no decode error. -/
theorem Raises.kind_ne {e : StepError} (h : Raises i s e) : e.kind ≠ .decodeError := by
  cases h <;> exact HaltKind.noConfusion

theorem exec_inv (h : exec i s = .next t) (hs : Inv s) (hpc : PcAdvanced s) : Inv t := by
  rcases exec_next s h with heff | ⟨e, rfl, hraise⟩
  · exact heff.inv hs hpc
  · obtain ⟨hmem, -, -, hst⟩ := hs
    exact ⟨hmem, fun hk => absurd (Status.halted.inj hk) hraise.kind_ne, hpc.sub_two_le, hst⟩

theorem takeDecodeError_inv {w : Word} (h : takeDecodeError w s = .next t) (hs : Inv s) : Inv t := by
  obtain ⟨hmem, hhalt, hle, hst⟩ := hs
  obtain ⟨ht, hstatus⟩ := takeDecodeError_next h
  rw [ht]
  refine ⟨hmem, fun hk => ?_, hle, hst⟩
  rcases hstatus with hsame | hpol
  · exact hhalt (hsame ▸ hk)
  · exact hpol

theorem stepWith_inv {rnd : Byte} (h : stepWith rnd s = .next t) (hs : Inv s) : Inv t := by
  obtain ⟨-, ⟨k, -, rfl⟩ | ⟨-, -, a, rfl⟩ | ⟨hrun, hin, hend⟩⟩ := stepWith_next h
  · exact hs
  · obtain ⟨hmem, -, hle, hst⟩ := hs
    exact ⟨hmem, fun hk => absurd (Status.halted.inj hk) HaltKind.noConfusion, hle, hst⟩
  · have hpc := advance_pcAdvanced (wordAtPc s) rnd hin
    have hadv : Inv (advance (wordAtPc s) rnd s) := by
      obtain ⟨hmem, hhalt, -, hst⟩ := hs
      exact ⟨hmem, hhalt, hpc.2.trans (by decide), hst⟩
    rcases hend with ⟨why, -, hend⟩ | ⟨i, -, hend⟩
    · exact takeDecodeError_inv hend hadv
    · exact exec_inv hend hadv hpc

theorem State.resetWith_inv (c : Config) : Inv (State.resetWith c) :=
  ⟨rfl, Status.noConfusion, (by decide : (0x200 : Word).toNat ≤ 0x10FE), fun j => by rw [State.resetWith_stack]; decide⟩

theorem transact_inv {tr : Transaction} (h : transact tr s = .next t) (hs : Inv s) : Inv t := by
  cases tr with
  | init => cases h; exact State.resetWith_inv s.config
  | step rnd => exact stepWith_inv h hs
  | tickTimers => obtain ⟨-, rfl⟩ := tickTimers_next h; exact hs
  | setKey index pressed => obtain ⟨-, ht, -⟩ := setKey_next h; rw [ht]; exact hs
  | load bytes =>
    obtain ⟨-, rfl | ⟨hlen, rfl⟩⟩ := load_next h
    · exact hs
    · obtain ⟨hmem, hrest⟩ := hs
      exact ⟨Memory.wf_putList _ hmem bytes (by unfold maxRom at hlen; unfold progBase; omega), hrest⟩

end

/-! ### The statements -/

/-- Settles O54: the reset values themselves. -/
theorem resetMeetsInvariant : Obligations.ResetMeetsInvariant :=
  ⟨State.resetWith_inv defaultConfig, State.resetWith_inv⟩

/-- Settles O55: `step` is `stepWith` of the next free byte. -/
theorem stepKeepsInvariant : Obligations.StepKeepsInvariant := fun _ _ hs h => stepWith_inv h hs

/-- Settles O56: every transaction keeps the invariant, so by induction every run of them does. -/
theorem transactionSequencesKeepInvariant : Obligations.TransactionSequencesKeepInvariant :=
  transactAll_induction fun _ _ _ hs h => transact_inv h hs

end Sys2Proof.Machine

/-! # Proofs: the step cycle (spec/40_step_cycle.md)

`transact (.step rnd)` is `stepWith rnd` and `step` is `stepWith` of the next free byte, so each statement is about
`stepWith` under every byte. -/

namespace Sys2Proof.Machine

open Sys2Proof.Safety

section
variable {s t : State} (rnd : Byte)

/-! ### One equation for each way a step ends -/

theorem stepWith_halted {k : HaltKind} (hl : s.loaded = true) (hk : s.status = .halted k) :
    stepWith rnd s = .next { s with reply := .stillHalted k } := by
  rcases stepWith_cases s rnd hl with ⟨k', hk', hr⟩ | ⟨-, hrun, -⟩ | ⟨hrun, -⟩
  · rw [hk] at hk'; cases hk'; exact hr
  · rw [hk] at hrun; cases hrun
  · rw [hk] at hrun; cases hrun

theorem stepWith_fetchError (hl : s.loaded = true) (hrun : s.status = .running) (hout : 4095 < s.pc.toNat + 1) :
    stepWith rnd s = .next (haltWith
      (.outOfBounds (if 4095 < s.pc.toNat then s.pc.toNat else s.pc.toNat + 1) .fetch) s) := by
  rcases stepWith_cases s rnd hl with ⟨k, hk, -⟩ | ⟨_, -, -, rfl, hr⟩ | ⟨-, hin, -⟩
  · rw [hrun] at hk; cases hk
  · exact hr
  · omega

theorem stepWith_unrecognized {why : DecodeReject} (hf : CanFetch s)
    (hd : decodeWord (wordAtPc s) = .unrecognized why) :
    stepWith rnd s = takeDecodeError (wordAtPc s) (advance (wordAtPc s) rnd s) := by
  obtain ⟨hl, hrun, hpc⟩ := hf
  rcases stepWith_cases s rnd hl with ⟨k, hk, -⟩ | ⟨a, -, hout, -⟩ | ⟨-, -, ⟨_, -, hr⟩ | ⟨i, hi, -⟩⟩
  · rw [hrun] at hk; cases hk
  · omega
  · exact hr
  · rw [hd] at hi; cases hi

/-! ### The result of a step -/

theorem HaltKind.code_le (k : HaltKind) : k.code ≤ 4 := by
  cases k <;> decide

/-- A reply of the step cycle: OK, or an error of code 1 to 4 (60_exceptions.md R200). -/
abbrev StepReply (r : Reply) : Prop := ∃ c ≤ 4, r.code = some c

theorem stepReply_ok : StepReply .ok := ⟨0, by decide, rfl⟩

theorem stepReply_error (e : StepError) : StepReply (.error e) := ⟨_, e.kind.code_le, rfl⟩

theorem exec_answers (i : Instr) (s : State) : ∃ t, exec i s = .next t ∧ StepReply t.reply := by
  rcases exec_cases s i with ⟨t, ht, heff⟩ | ⟨e, ht, -⟩
  · exact ⟨t, ht, heff.reply_ok ▸ stepReply_ok⟩
  · exact ⟨_, ht, stepReply_error e⟩

theorem takeDecodeError_answers (w : Word) (s : State) :
    ∃ t, takeDecodeError w s = .next t ∧ StepReply t.reply := by
  rcases takeDecodeError_cases s w with ⟨-, ht⟩ | ⟨-, ht⟩ <;> exact ⟨_, ht, stepReply_error _⟩

theorem stepWith_answers (hl : s.loaded = true) : ∃ t, stepWith rnd s = .next t ∧ StepReply t.reply := by
  rcases stepWith_cases s rnd hl with
    ⟨k, -, hr⟩ | ⟨a, -, -, -, hr⟩ | ⟨-, -, ⟨_, -, hr⟩ | ⟨i, -, hr⟩⟩ <;> rw [hr]
  · exact ⟨_, rfl, k.code, k.code_le, rfl⟩
  · exact ⟨_, rfl, stepReply_error _⟩
  · exact takeDecodeError_answers _ _
  · exact exec_answers i _

end

/-! ### The statements -/

/-- Settles O6: `advance` is the state the statement writes out. -/
theorem stepRunsDecodedInstruction : Obligations.StepRunsDecodedInstruction :=
  fun _ _ hf hd => ⟨fun rnd => stepWith_instr rnd hf hd, stepWith_instr _ hf hd⟩

/-- Settles O7: by the policy, after the step is the decode error of the fetched word. -/
theorem unrecognizedWordFollowsPolicy : Obligations.UnrecognizedWordFollowsPolicy := by
  intro s rnd why hf hd
  have hstep : transact (.step rnd) s = _ := stepWith_unrecognized rnd hf hd
  obtain ⟨-, hrun, -⟩ := hf
  rcases takeDecodeError_cases (advance (wordAtPc s) rnd s) (wordAtPc s) with ⟨hp, ht⟩ | ⟨hp, ht⟩
  · exact ⟨_, hstep.trans ht, rfl, rfl, rfl, fun _ => hrun, fun hh => absurd (hp.symm.trans hh) (by decide)⟩
  · exact ⟨_, hstep.trans ht, rfl, rfl, rfl, fun hc => absurd (hp.symm.trans hc) (by decide), fun _ => rfl⟩

/-- Settles O8: the first of the ways a step ends. -/
theorem haltedStepChangesNothing : Obligations.HaltedStepChangesNothing :=
  fun _ _ rnd hl hk => ⟨stepWith_halted rnd hl hk, stepWith_halted _ hl hk⟩

/-- Settles O9: the two outcomes of `fetch`. -/
theorem fetchReadsTwoBytesOrHalts : Obligations.FetchReadsTwoBytesOrHalts :=
  ⟨fun s h => ⟨wordAtPc s, fetch_ok s h, wordOfBytes_toNat _ _⟩,
    fun _ rnd hl hrun hout => ⟨_, stepWith_fetchError rnd hl hrun hout, rfl⟩⟩

/-- Settles O11: a step ends with OK or with the error of a halt kind, whose codes are 1 to 4. -/
theorem loadedStepAlwaysAnswers : Obligations.LoadedStepAlwaysAnswers :=
  fun _ hl => ⟨fun rnd => stepWith_answers rnd hl, stepWith_answers _ hl⟩

/-- Settles O12: of the ways a step ends, only the fetch error and a raise in EXECUTE have such a reply; the raise
puts PC back to where the advance found it. -/
theorem fatalStepRollsBack : Obligations.FatalStepRollsBack := by
  intro s t rnd e _ hrun h hreply hne
  obtain ⟨-, ⟨k, hk, -⟩ | ⟨-, hout, a, rfl⟩ | ⟨-, hin, ⟨_, -, hend⟩ | ⟨i, -, hend⟩⟩⟩ := stepWith_next h
  · rw [hrun] at hk; cases hk
  · cases hreply
    exact ⟨rfl, (if_neg (by omega)).symm⟩
  · obtain ⟨ht, -⟩ := takeDecodeError_next hend
    rw [ht] at hreply
    cases hreply
    exact absurd rfl (hne _)
  · rcases exec_next _ hend with heff | ⟨e', rfl, -⟩
    · rw [heff.reply_ok] at hreply; cases hreply
    · cases hreply
      have hpc : (advance (wordAtPc s) rnd s).pc - 2 = s.pc := pc_advance_rewind s.pc
      rw [hpc, if_pos hin]
      exact ⟨rfl, rfl⟩

/-! ### A placed word -/

theorem decodeTableWord_some {w : Nat} (hw : w < 65536) {i : Instr} (h : decodeTableWord 16 w = some i) :
    decodeWord (BitVec.ofNat 16 w) = .instr i := by
  simp only [decodeTableWord, decodeBytes, wordOfBytes_bytes, Nat.mod_eq_of_lt (show w < 2 ^ 16 from hw)] at h
  split at h <;> simp_all

/-- The fetch place is one that can be fetched (log 7). -/
theorem fetchPlace_le (s : State) : (fetchPlace s).toNat + 1 ≤ 4095 := by
  unfold fetchPlace
  split
  · assumption
  · decide

theorem placeWord_canFetch (s : State) (w : Word) : CanFetch (placeWord s w) := ⟨rfl, rfl, fetchPlace_le s⟩

/-- The two bytes placed are the ones FETCH reads, big-endian (20_memory.md R55). -/
theorem wordAtPc_placeWord (s : State) (w : Word) : wordAtPc (placeWord s w) = w := by
  have hread (a : Nat) : (placeWord s w).readByte a =
      Memory.get s.config.font (Memory.putList s.config.font s.mem (fetchPlace s).toNat [highByte w, lowByte w]) a :=
    rfl
  have hpc : (placeWord s w).pc = fetchPlace s := rfl
  rw [wordAtPc, hread, hread, hpc, Memory.get_putList, Memory.get_putList, dif_pos (by simp), dif_pos (by simp)]
  simpa using wordOfBytes_bytes w

/-- Settles O57: the placed state can be fetched, and the fetched word is the placed one. -/
theorem placedWordRunsNext : Obligations.PlacedWordRunsNext := by
  intro s w i hw h
  have hd := decodeTableWord_some hw h
  have hplace : s.withFetchWord 16 w = placeWord s (BitVec.ofNat 16 w) := by
    rw [State.withFetchWord, Nat.mod_eq_of_lt (show w < 2 ^ 16 from hw)]
  have hword := wordAtPc_placeWord s (BitVec.ofNat 16 w)
  refine ⟨hd, ?_⟩
  rw [hplace, step, stepWith_instr _ (placeWord_canFetch s _) (hword.symm ▸ hd), hword]
  rfl

end Sys2Proof.Machine

/-! # Proofs: the host's transactions (spec/60_exceptions.md, spec/70_reset_and_hazards.md) -/

namespace Sys2Proof.Machine

open Sys2Proof.Safety

/-! ### Timers -/

theorem countDown_toNat (b : Byte) : (countDown b).toNat = b.toNat - 1 := by
  unfold countDown
  split
  · next h => rw [h]; rfl
  · next h =>
    have hpos : b.toNat ≠ 0 := fun h0 => h (BitVec.eq_of_toNat_eq h0)
    have hle : (1 : Byte) ≤ b := by rw [BitVec.le_def]; exact Nat.one_le_iff_ne_zero.mpr hpos
    rw [BitVec.toNat_sub_of_le hle]; rfl

theorem beq_one_iff (b : Byte) : (b == 1) = decide (b.toNat = 1) := by
  rw [Bool.eq_iff_iff, beq_iff_eq, decide_eq_true_iff, BitVec.toNat_eq]; rfl

/-- A loaded machine after one tick. -/
def ticked (s : State) : State :=
  { s with dt := countDown s.dt, st := countDown s.st, reply := .beep (s.st == 1) }

theorem transact_tick {s : State} (hl : s.loaded = true) : transact .tickTimers s = .next (ticked s) :=
  tickTimers_loaded hl

@[simp] theorem ticked_loaded (s : State) : (ticked s).loaded = s.loaded := rfl

theorem ticked_st (s : State) : (ticked s).st.toNat = s.st.toNat - 1 := countDown_toNat s.st

theorem ticked_reply (s : State) : (ticked s).reply = .beep (decide (s.st.toNat = 1)) := by
  rw [← beq_one_iff]; rfl

theorem replies_tick {s : State} (hl : s.loaded = true) (trs : List Transaction) :
    replies (.tickTimers :: trs) s = .beep (decide (s.st.toNat = 1)) :: replies trs (ticked s) := by
  rw [replies, transact_tick hl, ← ticked_reply]

/-- Ticks with ST at 0 are silent. -/
theorem replies_ticks_silent {s : State} (hl : s.loaded = true) (hst : s.st.toNat = 0) (m : Nat) :
    replies (List.replicate m .tickTimers) s = List.replicate m (.beep false) := by
  induction m generalizing s with
  | zero => rfl
  | succ m ih =>
    rw [List.replicate_succ, replies_tick hl, ih ((ticked_loaded s).trans hl) (by rw [ticked_st]; omega), hst,
      List.replicate_succ]
    rfl

/-- Ticks with ST at k + 1: k are silent, the next beeps, all later ones are silent (60_exceptions.md R212). -/
theorem replies_ticks {s : State} (hl : s.loaded = true) {k : Nat} (hst : s.st.toNat = k + 1) (m : Nat) :
    replies (List.replicate (k + 1 + m) .tickTimers) s =
      List.replicate k (.beep false) ++ [.beep true] ++ List.replicate m (.beep false) := by
  induction k generalizing s with
  | zero =>
    rw [show 0 + 1 + m = m + 1 by omega, List.replicate_succ, replies_tick hl,
      replies_ticks_silent ((ticked_loaded s).trans hl) (by rw [ticked_st]; omega), hst]
    rfl
  | succ k ih =>
    rw [show k + 1 + 1 + m = k + 1 + m + 1 by omega, List.replicate_succ, replies_tick hl,
      ih ((ticked_loaded s).trans hl) (by rw [ticked_st]; omega), hst, List.replicate_succ]
    simp

/-! ### The statements -/

/-- Settles O10: the refusals, one equation each. -/
theorem bootOrderIsEnforced : Obligations.BootOrderIsEnforced :=
  ⟨fun _ bytes hl => load_loaded bytes hl, fun s => ⟨resetMachine s, transact_init s, rfl⟩,
    fun s hl => ⟨stepWith_unloaded s _ hl, tickTimers_unloaded hl, fun rnd => stepWith_unloaded s rnd hl,
      fun index pressed => setKey_unloaded index pressed hl⟩⟩

/-- Settles O44: the state after a tick. -/
theorem tickCountsBothTimersDown : Obligations.TickCountsBothTimersDown :=
  fun s hl => ⟨ticked s, transact_tick hl, by rw [← ticked_reply]; rfl, countDown_toNat s.dt, ticked_st s⟩

/-- Settles O45, by induction on the run: a tick that finds ST = 1 is the only one that beeps, and ST is 0 from
there on. -/
theorem oneBeepPerCountdown : Obligations.OneBeepPerCountdown := by
  intro trs
  induction trs with
  | nil =>
    intro s t _ h _
    cases h
    refine ⟨?_, by simp⟩
    rw [if_neg (by omega)]; rfl
  | cons tr trs ih =>
    intro s t hl h hall
    obtain ⟨htr, hrest⟩ := List.forall_mem_cons.mp hall
    rw [transactAll] at h
    rcases htr with rfl | ⟨index, pressed, rfl⟩
    · rw [transact_tick hl] at h
      obtain ⟨hcount, hst⟩ := ih (ticked s) t hl h hrest
      rw [ticked_st] at hcount hst
      rw [replies_tick hl, List.count_cons, hcount, List.count_cons_self, hst]
      refine ⟨?_, by omega⟩
      by_cases h1 : s.st.toNat = 1
      · simp [h1]
      · have hstarts : (0 < s.st.toNat - 1) = (0 < s.st.toNat) := by rw [eq_iff_iff]; omega
        simp [h1, hstarts]
    · cases hs : transact (.setKey index pressed) s with
      | next s' =>
        rw [hs] at h
        obtain ⟨-, hs', hbeep⟩ := setKey_next hs
        have hst' : s'.st = s.st := by rw [hs']
        obtain ⟨hcount, hst⟩ := ih s' t (by rw [hs']; exact hl) h hrest
        rw [hst'] at hcount hst
        rw [replies, hs]
        simp only
        rw [List.count_cons_of_ne (hbeep true), hcount, List.count_cons_of_ne Transaction.noConfusion]
        exact ⟨rfl, hst⟩
      | fault f => rw [hs] at h; cases h
      | refused r => rw [hs] at h; cases h

theorem rowDecodes_ldStV : RowDecodes 0xF0FF 0xF018 (fun w => .ldStV (fieldX w)) :=
  fun _ hw => (nibbleAndByte_of_and_F0FF hw).elim decodeWord_ldStV

theorem exec_ldStV (s : State) (x : Reg) : exec (.ldStV x) s = .next { s with st := s.readV x, reply := .ok } := rfl

/-- Settles O42: LD_ST_V sets ST, and the ticks from there on are those of a machine with ST = Vx. -/
theorem soundTimerSetBeepsOnce : Obligations.SoundTimerSetBeepsOnce := by
  refine ⟨rowDecodes_ldStV, fun s x => ⟨_, exec_ldStV s x, ⟨rfl, State.readByte_congr rfl rfl⟩, rfl, fun hl more => ?_⟩⟩
  have hl' : ({ s with st := s.readV x, reply := .ok } : State).loaded = true := hl
  by_cases h0 : s.readV x = 0
  · have hz : (s.readV x).toNat = 0 := congrArg BitVec.toNat h0
    rw [if_pos h0, hz, Nat.zero_add, List.nil_append]
    exact replies_ticks_silent hl' hz more
  · have hpos : (s.readV x).toNat ≠ 0 := fun hz => h0 (BitVec.eq_of_toNat_eq hz)
    obtain ⟨k, hk⟩ := Nat.exists_eq_succ_of_ne_zero hpos
    rw [if_neg h0, hk, Nat.succ_sub_one]
    exact replies_ticks hl' hk more

/-- Settles O46: the two outcomes of `setKey` on a loaded machine. -/
theorem setKeyStoresLevel : Obligations.SetKeyStoresLevel := by
  refine ⟨fun s k pressed hl => ⟨_, setKey_ok k pressed hl, rfl, Vector.getElem_set_self _, fun j hj => ?_⟩,
    fun s index pressed hl h => setKey_invalid pressed hl h⟩
  exact Vector.getElem_set_ne k.isLt j.isLt fun hkj => hj (Fin.ext hkj.symm)

/-- Settles O47: the two outcomes of `load`; the ROM is one block of writes from 512. -/
theorem loadCopiesRom : Obligations.LoadCopiesRom := by
  intro s bytes hl
  refine ⟨fun hlen => ⟨_, load_ok hl hlen, rfl, fun j hj => ?_, fun a ha => ?_⟩, fun hlen => load_tooLong hl hlen⟩
  · exact (Memory.get_putList _ _ _ _ _).trans (by simp [progBase, hj])
  · exact (Memory.get_putList _ _ _ _ _).trans (dif_neg (by unfold progBase; omega))

/-- Settles O52: a loaded machine refuses `load`, a HALTED one answers a step with its error, and the inversions of
the other two say what they write. -/
theorem haltedUntilInitialize : Obligations.HaltedUntilInitialize := by
  intro tr s t k hl hk h hinit
  cases tr with
  | init => exact absurd rfl hinit
  | load bytes => rw [transact, load_loaded bytes hl] at h; cases h
  | step rnd =>
    rw [transact, stepWith_halted rnd hl hk] at h
    cases h
    exact ⟨rfl, fun _ => rfl, fun _ => ⟨rfl, rfl⟩⟩
  | setKey index pressed =>
    obtain ⟨-, ht, -⟩ := setKey_next h
    rw [ht]
    exact ⟨rfl, fun hne => absurd rfl (hne index pressed), fun _ => ⟨rfl, rfl⟩⟩
  | tickTimers =>
    obtain ⟨-, rfl⟩ := tickTimers_next h
    exact ⟨rfl, fun _ => rfl, fun hne => absurd rfl hne⟩

/-! ### The parameters -/

section
variable {s t : State}

theorem Effect.config_eq {i : Instr} (h : Effect i s t) : t.config = s.config := by
  cases h <;> rfl

theorem exec_config {i : Instr} (h : exec i s = .next t) : t.config = s.config := by
  rcases exec_next s h with heff | ⟨e, rfl, -⟩
  · exact heff.config_eq
  · rfl

theorem stepWith_config {rnd : Byte} (h : stepWith rnd s = .next t) : t.config = s.config := by
  obtain ⟨-, ⟨k, -, rfl⟩ | ⟨-, -, a, rfl⟩ | ⟨-, -, ⟨_, -, hend⟩ | ⟨i, -, hend⟩⟩⟩ := stepWith_next h
  · rfl
  · rfl
  · obtain ⟨ht, -⟩ := takeDecodeError_next hend
    rw [ht]; rfl
  · exact (exec_config hend).trans (advance_config s _ rnd)

theorem transact_config {tr : Transaction} (h : transact tr s = .next t) : t.config = s.config := by
  cases tr with
  | init => cases h; rfl
  | step rnd => exact stepWith_config h
  | setKey index pressed => obtain ⟨-, ht, -⟩ := setKey_next h; rw [ht]
  | tickTimers => obtain ⟨-, rfl⟩ := tickTimers_next h; rfl
  | load bytes => obtain ⟨-, rfl | ⟨-, rfl⟩⟩ := load_next h <;> rfl

end

/-- Settles O53: no transaction changes them, so by induction no run does. -/
theorem parametersNeverChange : Obligations.ParametersNeverChange := by
  intro trs s t h
  exact transactAll_induction (P := fun u => u.config = s.config)
    (fun _ _ _ hu htr => (transact_config htr).trans hu) trs s t rfl h

end Sys2Proof.Machine

/-! # Proofs: the decoder and the opcode table (spec/30_encoding.md R73 to R75)

The rows of the table that no proof has needed so far; then that the decoder is the table, and that what it
refuses is the table of unrecognized words, family by family. -/

namespace Sys2Proof.Machine

open Sys2Proof.Safety

/-! ### The rows -/

theorem rowDecodes_ret : RowDecodes 0xFFFF 0x00EE (fun _ => .ret) := by
  intro w hw
  rw [and_FFFF] at hw
  subst hw
  decide

theorem rowDecodes_call : RowDecodes 0xF000 0x2000 (fun w => .call (fieldNnn w)) :=
  fun _ hw => decodeWord_call (firstNibble_of_and_F000 hw)

theorem rowDecodes_ldI : RowDecodes 0xF000 0xA000 (fun w => .ldI (fieldNnn w)) :=
  fun _ hw => decodeWord_ldI (firstNibble_of_and_F000 hw)

theorem rowDecodes_jpV0 : RowDecodes 0xF000 0xB000 (fun w => .jpV0 (fieldNnn w)) :=
  fun _ hw => decodeWord_jpV0 (firstNibble_of_and_F000 hw)

theorem rowDecodes_rnd : RowDecodes 0xF000 0xC000 (fun w => .rnd (fieldX w) (fieldKk w)) :=
  fun _ hw => decodeWord_rnd (firstNibble_of_and_F000 hw)

theorem rowDecodes_drw : RowDecodes 0xF000 0xD000 (fun w => .drw (fieldX w) (fieldY w) (fieldN w)) :=
  fun _ hw => decodeWord_drw (firstNibble_of_and_F000 hw)

theorem rowDecodes_seReg : RowDecodes 0xF00F 0x5000 (fun w => .seReg (fieldX w) (fieldY w)) :=
  fun _ hw => (nibbles_of_and_F00F hw).elim decodeWord_seReg

theorem rowDecodes_sneReg : RowDecodes 0xF00F 0x9000 (fun w => .sneReg (fieldX w) (fieldY w)) :=
  fun _ hw => (nibbles_of_and_F00F hw).elim decodeWord_sneReg

theorem rowDecodes_addReg : RowDecodes 0xF00F 0x8004 (fun w => .addReg (fieldX w) (fieldY w)) :=
  fun _ hw => (nibbles_of_and_F00F hw).elim decodeWord_addReg

theorem rowDecodes_sub : RowDecodes 0xF00F 0x8005 (fun w => .sub (fieldX w) (fieldY w)) :=
  fun _ hw => (nibbles_of_and_F00F hw).elim decodeWord_sub

theorem rowDecodes_shr : RowDecodes 0xF00F 0x8006 (fun w => .shr (fieldX w)) :=
  fun _ hw => (nibbles_of_and_F00F hw).elim decodeWord_shr

theorem rowDecodes_subn : RowDecodes 0xF00F 0x8007 (fun w => .subn (fieldX w) (fieldY w)) :=
  fun _ hw => (nibbles_of_and_F00F hw).elim decodeWord_subn

theorem rowDecodes_shl : RowDecodes 0xF00F 0x800E (fun w => .shl (fieldX w)) :=
  fun _ hw => (nibbles_of_and_F00F hw).elim decodeWord_shl

theorem rowDecodes_skp : RowDecodes 0xF0FF 0xE09E (fun w => .skp (fieldX w)) :=
  fun _ hw => (nibbleAndByte_of_and_F0FF hw).elim decodeWord_skp

theorem rowDecodes_sknp : RowDecodes 0xF0FF 0xE0A1 (fun w => .sknp (fieldX w)) :=
  fun _ hw => (nibbleAndByte_of_and_F0FF hw).elim decodeWord_sknp

theorem rowDecodes_addI : RowDecodes 0xF0FF 0xF01E (fun w => .addI (fieldX w)) :=
  fun _ hw => (nibbleAndByte_of_and_F0FF hw).elim decodeWord_addI

theorem rowDecodes_ldF : RowDecodes 0xF0FF 0xF029 (fun w => .ldF (fieldX w)) :=
  fun _ hw => (nibbleAndByte_of_and_F0FF hw).elim decodeWord_ldF

theorem rowDecodes_ldB : RowDecodes 0xF0FF 0xF033 (fun w => .ldB (fieldX w)) :=
  fun _ hw => (nibbleAndByte_of_and_F0FF hw).elim decodeWord_ldB

theorem rowDecodes_ldMemV : RowDecodes 0xF0FF 0xF055 (fun w => .ldMemV (fieldX w)) :=
  fun _ hw => (nibbleAndByte_of_and_F0FF hw).elim decodeWord_ldMemV

theorem rowDecodes_ldVMem : RowDecodes 0xF0FF 0xF065 (fun w => .ldVMem (fieldX w)) :=
  fun _ hw => (nibbleAndByte_of_and_F0FF hw).elim decodeWord_ldVMem

/-! ### The table -/

/-- Every word of the row decodes to an instruction of the row's mnemonic. -/
def RowNamesInstr (row : OpcodeRow) : Prop :=
  ∀ w : Word, row.fits w = true → ∃ i, decodeWord w = .instr i ∧ i.mnemonic = row.mnemonic

theorem fits_iff (row : OpcodeRow) (w : Word) : row.fits w = true ↔ w &&& row.mask = row.pattern := beq_iff_eq

theorem rowNamesInstr_of_rowDecodes {m : String} {mask pattern : Word} {instr : Word → Instr}
    (h : RowDecodes mask pattern instr) (hm : ∀ w, (instr w).mnemonic = m) : RowNamesInstr ⟨m, mask, pattern⟩ :=
  fun w hw => ⟨instr w, h w ((fits_iff _ w).mp hw), hm w⟩

theorem opcodeTableNibble_namesInstr : ∀ row ∈ opcodeTableNibble, RowNamesInstr row := by
  simp only [opcodeTableNibble, List.forall_mem_cons]
  exact ⟨rowNamesInstr_of_rowDecodes rowDecodes_cls fun _ => rfl,
    rowNamesInstr_of_rowDecodes rowDecodes_ret fun _ => rfl,
    rowNamesInstr_of_rowDecodes rowDecodes_jp fun _ => rfl,
    rowNamesInstr_of_rowDecodes rowDecodes_call fun _ => rfl,
    rowNamesInstr_of_rowDecodes rowDecodes_seImm fun _ => rfl,
    rowNamesInstr_of_rowDecodes rowDecodes_sneImm fun _ => rfl,
    rowNamesInstr_of_rowDecodes rowDecodes_ldImm fun _ => rfl,
    rowNamesInstr_of_rowDecodes rowDecodes_addImm fun _ => rfl,
    rowNamesInstr_of_rowDecodes rowDecodes_ldI fun _ => rfl,
    rowNamesInstr_of_rowDecodes rowDecodes_jpV0 fun _ => rfl,
    rowNamesInstr_of_rowDecodes rowDecodes_rnd fun _ => rfl,
    rowNamesInstr_of_rowDecodes rowDecodes_drw fun _ => rfl,
    fun _ h => absurd h List.not_mem_nil⟩

theorem opcodeTableReg_namesInstr : ∀ row ∈ opcodeTableReg, RowNamesInstr row := by
  simp only [opcodeTableReg, List.forall_mem_cons]
  exact ⟨rowNamesInstr_of_rowDecodes rowDecodes_seReg fun _ => rfl,
    rowNamesInstr_of_rowDecodes rowDecodes_orReg fun _ => rfl,
    rowNamesInstr_of_rowDecodes rowDecodes_andReg fun _ => rfl,
    rowNamesInstr_of_rowDecodes rowDecodes_xorReg fun _ => rfl,
    rowNamesInstr_of_rowDecodes rowDecodes_addReg fun _ => rfl,
    rowNamesInstr_of_rowDecodes rowDecodes_sub fun _ => rfl,
    rowNamesInstr_of_rowDecodes rowDecodes_shr fun _ => rfl,
    rowNamesInstr_of_rowDecodes rowDecodes_subn fun _ => rfl,
    rowNamesInstr_of_rowDecodes rowDecodes_shl fun _ => rfl,
    rowNamesInstr_of_rowDecodes rowDecodes_sneReg fun _ => rfl,
    fun _ h => absurd h List.not_mem_nil⟩

theorem opcodeTableByte_namesInstr : ∀ row ∈ opcodeTableByte, RowNamesInstr row := by
  simp only [opcodeTableByte, List.forall_mem_cons]
  exact ⟨rowNamesInstr_of_rowDecodes rowDecodes_skp fun _ => rfl,
    rowNamesInstr_of_rowDecodes rowDecodes_sknp fun _ => rfl,
    rowNamesInstr_of_rowDecodes rowDecodes_ldVDt fun _ => rfl,
    rowNamesInstr_of_rowDecodes rowDecodes_ldVK fun _ => rfl,
    rowNamesInstr_of_rowDecodes rowDecodes_ldDtV fun _ => rfl,
    rowNamesInstr_of_rowDecodes rowDecodes_ldStV fun _ => rfl,
    rowNamesInstr_of_rowDecodes rowDecodes_addI fun _ => rfl,
    rowNamesInstr_of_rowDecodes rowDecodes_ldF fun _ => rfl,
    rowNamesInstr_of_rowDecodes rowDecodes_ldB fun _ => rfl,
    rowNamesInstr_of_rowDecodes rowDecodes_ldMemV fun _ => rfl,
    rowNamesInstr_of_rowDecodes rowDecodes_ldVMem fun _ => rfl,
    fun _ h => absurd h List.not_mem_nil⟩

theorem opcodeTable_namesInstr : ∀ row ∈ opcodeTable, RowNamesInstr row := by
  intro row hrow
  rw [opcodeTable, List.mem_append, List.mem_append] at hrow
  rcases hrow with (hn | hr) | hb
  · exact opcodeTableNibble_namesInstr row hn
  · exact opcodeTableReg_namesInstr row hr
  · exact opcodeTableByte_namesInstr row hb

/-- Two rows of the table differ on a bit both fix. -/
theorem opcodeTable_disjoint : ∀ row₁ ∈ opcodeTable, ∀ row₂ ∈ opcodeTable,
    row₁.pattern &&& row₂.mask = row₂.pattern &&& row₁.mask → row₁ = row₂ := by
  decide

/-- A word that fits two rows carries the pattern of each on the bits the other fixes. -/
theorem pattern_and_mask_comm {row₁ row₂ : OpcodeRow} {w : Word} (h₁ : row₁.fits w = true)
    (h₂ : row₂.fits w = true) : row₁.pattern &&& row₂.mask = row₂.pattern &&& row₁.mask := by
  rw [← (fits_iff _ w).mp h₁, ← (fits_iff _ w).mp h₂, BitVec.and_assoc, BitVec.and_assoc,
    BitVec.and_comm row₁.mask]

theorem rowBits (i : Instr) : Laws.RowBits.Statement i := by
  cases i with
  | cls => exact Laws.RowBits.cls
  | ret => exact Laws.RowBits.ret
  | jp nnn => exact Laws.RowBits.jp nnn
  | call nnn => exact Laws.RowBits.call nnn
  | seImm x kk => exact Laws.RowBits.seImm x kk
  | sneImm x kk => exact Laws.RowBits.sneImm x kk
  | ldImm x kk => exact Laws.RowBits.ldImm x kk
  | addImm x kk => exact Laws.RowBits.addImm x kk
  | ldI nnn => exact Laws.RowBits.ldI nnn
  | jpV0 nnn => exact Laws.RowBits.jpV0 nnn
  | rnd x kk => exact Laws.RowBits.rnd x kk
  | drw x y n => exact Laws.RowBits.drw x y n
  | seReg x y => exact Laws.RowBits.seReg x y
  | orReg x y => exact Laws.RowBits.orReg x y
  | andReg x y => exact Laws.RowBits.andReg x y
  | xorReg x y => exact Laws.RowBits.xorReg x y
  | addReg x y => exact Laws.RowBits.addReg x y
  | sub x y => exact Laws.RowBits.sub x y
  | shr x => exact Laws.RowBits.shr x
  | subn x y => exact Laws.RowBits.subn x y
  | shl x => exact Laws.RowBits.shl x
  | sneReg x y => exact Laws.RowBits.sneReg x y
  | skp x => exact Laws.RowBits.skp x
  | sknp x => exact Laws.RowBits.sknp x
  | ldVDt x => exact Laws.RowBits.ldVDt x
  | ldVK x => exact Laws.RowBits.ldVK x
  | ldDtV x => exact Laws.RowBits.ldDtV x
  | ldStV x => exact Laws.RowBits.ldStV x
  | addI x => exact Laws.RowBits.addI x
  | ldF x => exact Laws.RowBits.ldF x
  | ldB x => exact Laws.RowBits.ldB x
  | ldMemV x => exact Laws.RowBits.ldMemV x
  | ldVMem x => exact Laws.RowBits.ldVMem x

/-- The y nibble is outside the fixed bits of every row of a shift. -/
theorem shiftRows_ignore_y : ∀ row ∈ opcodeTable, row.mnemonic = "SHR" ∨ row.mnemonic = "SHL" →
    (0xFF0F : Word) &&& row.mask = row.mask := by
  decide

/-- The row of the instruction a word decodes to fits the word: it fits the encoding, and the encoding is the word
but for the y nibble of the shifts. -/
theorem decodeWord_row_fits {w : Word} {i : Instr} (h : decodeWord w = .instr i) :
    ∃ row ∈ opcodeTable, row.fits w = true ∧ row.mnemonic = i.mnemonic := by
  obtain ⟨hwf, henc⟩ := encodeDecodeKeepsWord w i h
  obtain ⟨row, hrow, hname, hfits⟩ := rowBits i hwf
  refine ⟨row, hrow, ?_, hname⟩
  cases i with
  | shr x =>
    rw [henc, fits_iff, BitVec.and_assoc, shiftRows_ignore_y row hrow (.inl hname)] at hfits
    exact (fits_iff row w).mpr hfits
  | shl x =>
    rw [henc, fits_iff, BitVec.and_assoc, shiftRows_ignore_y row hrow (.inr hname)] at hfits
    exact (fits_iff row w).mpr hfits
  | _ => exact (congrArg row.fits henc).symm.trans hfits

/-- Settles O3: each row decodes to its own instruction, the rows are disjoint, and the row of a decoded
instruction fits its word. -/
theorem decoderFollowsOpcodeTable : Obligations.DecoderFollowsOpcodeTable :=
  fun w => ⟨fun _ h => decodeWord_row_fits h, fun row hrow hfits => opcodeTable_namesInstr row hrow w hfits,
    fun row₁ h₁ row₂ h₂ hf₁ hf₂ => opcodeTable_disjoint row₁ h₁ row₂ h₂ (pattern_and_mask_comm hf₁ hf₂)⟩

/-! ### The unrecognized words -/

/-- The decoder's answer is one of the rejections. -/
def Rejects (d : Decoded) : Prop := ∃ why, d = .unrecognized why

@[simp] theorem rejects_instr (i : Instr) : ¬ Rejects (.instr i) := fun ⟨_, h⟩ => Decoded.noConfusion h

@[simp] theorem rejects_unrecognized (why : DecodeReject) : Rejects (.unrecognized why) := ⟨why, rfl⟩

section
variable (w : Word)

theorem decodeZero_rejects : Rejects (decodeZero w) ↔ w ≠ 0x00E0 ∧ w ≠ 0x00EE := by
  have h1 : w = 0x00E0 ↔ w.toNat = 0x00E0 := BitVec.toNat_eq
  have h2 : w = 0x00EE ↔ w.toNat = 0x00EE := BitVec.toNat_eq
  rw [Ne, Ne, h1, h2, decodeZero]
  split <;> [skip; split] <;> simp_all

theorem decodeFive_rejects : Rejects (decodeFive w) ↔ bits w 3 0 ≠ 0 := by
  unfold decodeFive fieldN
  split <;> simp_all

theorem decodeNine_rejects : Rejects (decodeNine w) ↔ bits w 3 0 ≠ 0 := by
  unfold decodeNine fieldN
  split <;> simp_all

theorem decodeEight_rejects :
    Rejects (decodeEight w) ↔ bits w 3 0 ∈ [0x0, 0x8, 0x9, 0xA, 0xB, 0xC, 0xD, 0xF] := by
  have hn : bits w 3 0 < 16 := by rw [bits_n]; omega
  unfold decodeEight fieldN
  interval_cases bits w 3 0 <;> simp

theorem decodeE_rejects : Rejects (decodeE w) ↔ bits w 7 0 ∉ [0x9E, 0xA1] := by
  unfold decodeE
  split <;> simp_all

theorem decodeF_rejects :
    Rejects (decodeF w) ↔ bits w 7 0 ∉ [0x07, 0x0A, 0x15, 0x18, 0x1E, 0x29, 0x33, 0x55, 0x65] := by
  unfold decodeF
  split <;> simp_all

end

/-- Settles O4: the first nibble picks the family, and each family rejects by its clause; the other ten families
reject nothing. -/
theorem unrecognizedWordsAreTheTables : Obligations.UnrecognizedWordsAreTheTables := by
  intro w
  have hop : bits w 15 12 < 16 := by
    have := word_lt w
    rw [bits_op]; omega
  change Rejects (decodeWord w) ↔ _
  rw [decodeWord, fieldOp]
  interval_cases bits w 15 12 <;>
    simp [decodeZero_rejects, decodeFive_rejects, decodeEight_rejects, decodeNine_rejects, decodeE_rejects,
      decodeF_rejects]

end Sys2Proof.Machine

/-! # Proofs: calls, returns, offset jumps, and skips on registers and keys

spec/42_control_flow.md and spec/45_keys_timers.md: each instruction is a `jump`, a `skipIf`, a push or a pop, or
the raise of its error. -/

namespace Sys2Proof.Machine

open Sys2Proof.Safety

/-! ### Fatal errors -/

/-- `raise` is the whole of taking a fatal error, so no memory byte changes (40_step_cycle.md R107). -/
theorem takesFatal_of_raise {res : Result} {e : StepError} {s : State} (h : res = raise e s) :
    ∃ t, res = .next t ∧ TakesFatal s t e :=
  ⟨_, h, rfl, State.readByte_congr rfl rfl⟩

section
variable (s : State)

/-! ### The instructions as the operations they end in -/

theorem exec_jpV0 (nnn : Addr12) : exec (.jpV0 nnn) s = complete (s.jump (offsetTarget nnn (s.readV 0))) := rfl

theorem exec_seReg (x y : Reg) : exec (.seReg x y) s = complete (s.skipIf (s.readV x == s.readV y)) := rfl

theorem exec_sneReg (x y : Reg) : exec (.sneReg x y) s = complete (s.skipIf (s.readV x != s.readV y)) := rfl

/-- A skip by the word PC holds afterwards. -/
theorem complete_skipIf_pc (c : Bool) :
    ∃ t, complete (s.skipIf c) = .next t ∧ OnlyPc s t ∧ t.pc = if c = true then s.pc + 2 else s.pc :=
  skipIf_eq_jump s c ▸ complete_jump s _

theorem skipOnKey_key (x : Reg) (level : Bool) {k : Fin 16} (hk : (s.readV x).toNat = k.val) :
    skipOnKey x level s = complete (s.skipIf (s.keys[k.val] == level)) := by
  simp only [skipOnKey_ok s x level (hk ▸ k.isLt), hk]

theorem exec_call_ok (nnn : Addr12) (h : s.sp.val < 16) :
    exec (.call nnn) s = .next { s with
      stack := s.stack.set s.sp.val s.pc, sp := ⟨s.sp.val + 1, by omega⟩, pc := zext16 nnn, reply := .ok } :=
  execCall_ok s nnn h

theorem exec_ret_ok (j : Fin 16) (h : s.sp.val = j.val + 1) :
    exec .ret s = .next { s with pc := s.stack[j.val], sp := ⟨j.val, by omega⟩, reply := .ok } := by
  have hj : s.sp.val - 1 = j.val := by omega
  refine (execRet_ok s (by omega)).trans ?_
  simp only [hj, complete_eq]

end

/-! ### The statements -/

/-- Settles O20: JP_V0 is the jump to the sum, which 16 bits hold. -/
theorem offsetJumpAddsV0 : Obligations.OffsetJumpAddsV0 := by
  refine ⟨rowDecodes_jpV0, fun s nnn => ?_⟩
  obtain ⟨t, hrun, hframe, hpc⟩ := complete_jump s (offsetTarget nnn (s.readV 0))
  exact ⟨t, (exec_jpV0 s nnn).trans hrun, hframe, by rw [hpc, offsetTarget_toNat]⟩

/-- Settles O21: the push of a stack that is not full, and the raise of a full one. -/
theorem callPushesReturnAddress : Obligations.CallPushesReturnAddress := by
  refine ⟨rowDecodes_call, fun s nnn h => ?_, fun s nnn h => ?_⟩
  · refine ⟨_, exec_call_ok s nnn h, ⟨rfl, fun j hj => ?_, State.readByte_congr rfl rfl⟩,
      Vector.getElem_set_self h, rfl, zext16_toNat nnn⟩
    exact Vector.getElem_set_ne h j.isLt fun hsp => List.ne_of_not_mem_cons hj (Fin.ext hsp.symm)
  · exact takesFatal_of_raise (execCall_full s nnn (by omega))

/-- Settles O22: the pop of a stack that is not empty, and the raise of an empty one. -/
theorem returnPopsIntoPc : Obligations.ReturnPopsIntoPc := by
  refine ⟨rowDecodes_ret, fun s j h => ?_, fun s h => ?_⟩
  · exact ⟨_, exec_ret_ok s j h, ⟨rfl, fun _ _ => rfl, State.readByte_congr rfl rfl⟩, rfl, rfl⟩
  · exact takesFatal_of_raise (execRet_empty s (by omega))

/-- Settles O23: the return pops the entry the call pushed. -/
theorem callThenReturnComesBack : Obligations.CallThenReturnComesBack := by
  intro s t u nnn hsp h hstack hsp'
  rw [exec_call_ok s nnn hsp] at h
  cases h
  have hpop := exec_ret_ok u ⟨s.sp.val, hsp⟩ (congrArg Fin.val hsp')
  refine ⟨_, hpop, ?_, rfl, rfl⟩
  simp only [hstack]
  exact Vector.getElem_set_self hsp

/-- The low nibble of 5xy0 and 9xy0 is fixed (30_encoding.md R74). -/
theorem decodeWord_skipFamilies_reject {w : Word} (hop : bits w 15 12 = 0x5 ∨ bits w 15 12 = 0x9)
    (hn : bits w 3 0 ≠ 0) : ∃ why, decodeWord w = .unrecognized why := by
  refine (unrecognizedWordsAreTheTables w).mpr ?_
  rcases hop with h5 | h9
  · exact .inr (.inl ⟨h5, hn⟩)
  · exact .inr (.inr (.inr (.inl ⟨h9, hn⟩)))

/-- Settles O25: each is `skipIf`, SE_reg on the test Vx = Vy and SNE_reg on its negation. -/
theorem registerSkipsAdvancePc : Obligations.RegisterSkipsAdvancePc := by
  refine ⟨rowDecodes_seReg, rowDecodes_sneReg, fun w => decodeWord_skipFamilies_reject, fun s x y => ⟨?_, ?_⟩⟩
  · simpa only [exec_seReg, beq_iff_eq] using complete_skipIf s (s.readV x == s.readV y)
  · simpa only [exec_sneReg, bne_iff_ne, ne_eq, ite_not] using complete_skipIf s (s.readV x != s.readV y)

/-- Settles O40: both are `skipOnKey`, SKP on the level true and SKNP on false. -/
theorem keySkipsReadTheLevel : Obligations.KeySkipsReadTheLevel := by
  refine ⟨rowDecodes_skp, rowDecodes_sknp, fun s x k hk => ⟨?_, ?_⟩, fun s x h => ⟨?_, ?_⟩⟩
  · obtain ⟨t, hrun, hframe, hpc⟩ := complete_skipIf_pc s (s.keys[k.val] == true)
    exact ⟨t, (skipOnKey_key s x true hk).trans hrun, hframe, by simpa using hpc⟩
  · obtain ⟨t, hrun, hframe, hpc⟩ := complete_skipIf_pc s (s.keys[k.val] == false)
    refine ⟨t, (skipOnKey_key s x false hk).trans hrun, hframe, hpc.trans ?_⟩
    cases s.keys[k.val] <;> rfl
  · exact takesFatal_of_raise (skipOnKey_error s x true (by omega))
  · exact takesFatal_of_raise (skipOnKey_error s x false (by omega))

end Sys2Proof.Machine

/-! # Proofs: the flag-writing instructions and Cxkk (spec/43_register_alu.md)

The five flag-writing instructions all end in `complete` of `writeResultThenFlag`. -/

namespace Sys2Proof.Machine

open Sys2Proof.Safety

section
variable (s : State) (x y : Reg)

/-- The flag, written last, wins in VF (R162), so the result is read back only where x is not F. -/
theorem complete_writeResultThenFlag (r : Byte) (f : Bool) :
    ∃ t, complete (s.writeResultThenFlag x r f) = .next t ∧ OnlyRegs s t [x, 15] ∧
      (x ≠ 15 → t.readV x = r) ∧ t.readV 15 = flagByte f := by
  have hread (q : Reg) : State.readV { s.writeResultThenFlag x r f with reply := .ok } q =
      if q = flagReg then flagByte f else if q = x then r else s.readV q :=
    s.readV_writeResultThenFlag x q r f
  refine ⟨_, complete_eq _, ⟨rfl, fun q hq => ?_, State.readByte_congr rfl rfl⟩, fun hx => ?_, ?_⟩
  · obtain ⟨hqx, hqf⟩ : q ≠ x ∧ q ≠ 15 := by simpa using hq
    rw [hread, if_neg hqf, if_neg hqx]
  · rw [hread, if_neg hx, if_pos rfl]
  · rw [hread, if_pos rfl]

theorem exec_addReg : exec (.addReg x y) s = complete
    (s.writeResultThenFlag x (s.readV x + s.readV y) (carry (s.readV x) (s.readV y))) := rfl

theorem exec_sub : exec (.sub x y) s = complete
    (s.writeResultThenFlag x (s.readV x - s.readV y) (notBorrow (s.readV x) (s.readV y))) := rfl

theorem exec_subn : exec (.subn x y) s = complete
    (s.writeResultThenFlag x (s.readV y - s.readV x) (notBorrow (s.readV y) (s.readV x))) := rfl

theorem exec_shr : exec (.shr x) s = complete
    (s.writeResultThenFlag x (s.readV x >>> 1) (shiftedOutRight (s.readV x))) := rfl

theorem exec_shl : exec (.shl x) s = complete
    (s.writeResultThenFlag x (s.readV x <<< 1) (shiftedOutLeft (s.readV x))) := rfl

theorem exec_rnd (kk : Byte) : exec (.rnd x kk) s = complete (s.writeV x (s.rnd &&& kk)) := rfl

end

/-! ### The flags as numbers -/

section
variable (a b : Byte)

theorem flagByte_toNat (f : Bool) : (flagByte f).toNat = f.toNat := by
  cases f <;> rfl

theorem flagByte_carry : flagByte (carry a b) = if a.toNat + b.toNat ≥ 256 then 1 else 0 := by
  simp only [flagByte, carry, decide_eq_true_eq, ge_iff_le]

theorem flagByte_notBorrow : flagByte (notBorrow a b) = if a.toNat ≥ b.toNat then 1 else 0 := by
  simp only [flagByte, notBorrow, decide_eq_true_eq, ge_iff_le]

theorem flagByte_shiftedOutRight : (flagByte (shiftedOutRight a)).toNat = a.toNat % 2 := by
  rw [flagByte_toNat, shiftedOutRight, BitVec.getLsbD, Nat.testBit_zero]
  rcases Nat.mod_two_eq_zero_or_one a.toNat with h | h <;> simp [h]

/-- Bit 7 is the highest of the byte, so it is the quotient by 128. -/
theorem flagByte_shiftedOutLeft : (flagByte (shiftedOutLeft a)).toNat = a.toNat / 128 := by
  have hlt := a.isLt
  rw [flagByte_toNat, shiftedOutLeft, BitVec.getLsbD, Nat.testBit_eq_decide_div_mod_eq,
    show 2 ^ 7 = 128 from rfl]
  rcases (show a.toNat / 128 = 0 ∨ a.toNat / 128 = 1 by omega) with h | h <;> rw [h] <;> rfl

theorem byte_sub_toNat : (a - b).toNat = (a.toNat + 256 - b.toNat) % 256 := by
  have := b.isLt
  rw [BitVec.toNat_sub]; omega

theorem byte_shiftRight_one_toNat : (a >>> 1).toNat = a.toNat / 2 := by
  rw [BitVec.toNat_ushiftRight, Nat.shiftRight_eq_div_pow, pow_one]

theorem byte_shiftLeft_one_toNat : (a <<< 1).toNat = a.toNat * 2 % 256 := by
  rw [BitVec.toNat_shiftLeft, Nat.shiftLeft_eq, pow_one]

end

/-! ### The statements -/

/-- Settles O29: the sum and its carry. -/
theorem addRegistersSetsCarry : Obligations.AddRegistersSetsCarry := by
  refine ⟨rowDecodes_addReg, fun s x y => ?_⟩
  obtain ⟨t, hrun, hframe, hres, hflag⟩ := complete_writeResultThenFlag s x
    (s.readV x + s.readV y) (carry (s.readV x) (s.readV y))
  exact ⟨t, (exec_addReg s x y).trans hrun, hframe, fun hx => by rw [hres hx, BitVec.toNat_add],
    hflag.trans (flagByte_carry _ _)⟩

/-- The difference of any two bytes and its not-borrow. -/
theorem complete_difference (s : State) (x : Reg) (a b : Byte) :
    ∃ t, complete (s.writeResultThenFlag x (a - b) (notBorrow a b)) = .next t ∧ OnlyRegs s t [x, 15] ∧
      (x ≠ 15 → (t.readV x).toNat = (a.toNat + 256 - b.toNat) % 256) ∧
      t.readV 15 = if a.toNat ≥ b.toNat then 1 else 0 := by
  obtain ⟨t, hrun, hframe, hres, hflag⟩ := complete_writeResultThenFlag s x (a - b) (notBorrow a b)
  exact ⟨t, hrun, hframe, fun hx => by rw [hres hx, byte_sub_toNat], hflag.trans (flagByte_notBorrow a b)⟩

/-- Settles O30: SUB is Vx - Vy, SUBN is Vy - Vx. -/
theorem subtractionsSetNotBorrow : Obligations.SubtractionsSetNotBorrow := by
  refine ⟨rowDecodes_sub, rowDecodes_subn, fun s x y => ?_⟩
  rw [exec_sub, exec_subn]
  exact ⟨complete_difference s x (s.readV x) (s.readV y), complete_difference s x (s.readV y) (s.readV x)⟩

/-- Settles O31: the row leaves the y nibble free, and the shifted byte and its dropped bit are half and remainder,
or double and quotient. -/
theorem shiftsSetDroppedBit : Obligations.ShiftsSetDroppedBit := by
  refine ⟨rowDecodes_shr, rowDecodes_shl, fun s x => ⟨?_, ?_⟩⟩
  · obtain ⟨t, hrun, hframe, hres, hflag⟩ := complete_writeResultThenFlag s x
      (s.readV x >>> 1) (shiftedOutRight (s.readV x))
    exact ⟨t, (exec_shr s x).trans hrun, hframe, fun hx => by rw [hres hx, byte_shiftRight_one_toNat],
      by rw [hflag, flagByte_shiftedOutRight]⟩
  · obtain ⟨t, hrun, hframe, hres, hflag⟩ := complete_writeResultThenFlag s x
      (s.readV x <<< 1) (shiftedOutLeft (s.readV x))
    exact ⟨t, (exec_shl s x).trans hrun, hframe, fun hx => by rw [hres hx, byte_shiftLeft_one_toNat],
      by rw [hflag, flagByte_shiftedOutLeft]⟩

/-- Settles O32: RND is the write of the latched byte masked by the literal. -/
theorem randomByteIsMasked : Obligations.RandomByteIsMasked := by
  refine ⟨rowDecodes_rnd, fun s x kk => ?_⟩
  rw [exec_rnd]
  exact complete_writeV_bits s x fun _ => BitVec.getLsbD_and

end Sys2Proof.Machine

/-! # Proofs: the index register and memory (spec/44_index_memory.md, spec/20_memory.md)

Fx33, Fx55 and Fx65 take a block of addresses from I on: either all of it is inside memory, or there is a first
address outside, which is 4096 unless I itself is outside. -/

namespace Sys2Proof.Machine

open Sys2Proof.Safety

section
variable (s : State)

/-! ### The index register -/

theorem complete_setI (w : Word) : ∃ t, complete { s with i := w } = .next t ∧ OnlyIndex s t ∧ t.i = w :=
  ⟨_, complete_eq _, ⟨rfl, State.readByte_congr rfl rfl⟩, rfl⟩

theorem exec_ldI (nnn : Addr12) : exec (.ldI nnn) s = complete { s with i := zext16 nnn } := rfl

theorem exec_addI (x : Reg) : exec (.addI x) s = complete { s with i := indexSum s.i (s.readV x) } := rfl

theorem exec_ldF (x : Reg) : exec (.ldF x) s = complete { s with i := glyphAddr (s.readV x) } := rfl

/-- 255 × 5 is below 2^16. -/
theorem glyphAddr_toNat (b : Byte) : (glyphAddr b).toNat = b.toNat * 5 := by
  have := b.isLt
  rw [glyphAddr, BitVec.toNat_ofNat]; omega

/-! ### Blocks of memory -/

/-- The first address above 4095 of a block that leaves memory. -/
theorem firstOutside {a k : Nat} (h : 4095 < a + k) :
    ∃ r < k + 1, 4095 < a + r ∧ (∀ q < r, a + q ≤ 4095) ∧ a + r = if 4095 < a then a else 4096 := by
  by_cases ha : 4095 < a
  · exact ⟨0, by omega, by omega, fun q hq => by omega, by rw [if_pos ha]; rfl⟩
  · exact ⟨4096 - a, by omega, by omega, fun q hq => by omega, by rw [if_neg ha]; omega⟩

/-- A block that leaves memory raises OUT_OF_BOUNDS of its first address outside, whichever instruction reads or
writes it. -/
theorem takesFatal_firstOutside {res : Result} {a k : Nat} (h : 4095 < a + k)
    (hraise : ∀ r < k + 1, 4095 < a + r → (∀ q < r, a + q ≤ 4095) → res = raise (.outOfBounds (a + r) .data) s) :
    ∃ t, res = .next t ∧ TakesFatal s t (.outOfBounds (if 4095 < a then a else 4096) .data) := by
  obtain ⟨r, hr, hout, hin, haddr⟩ := firstOutside h
  exact haddr ▸ takesFatal_of_raise (hraise r hr hout hin)

/-- A completed store of a block. -/
def stored (a : Nat) (bs : List Byte) : State :=
  { s with mem := Memory.putList s.config.font s.mem a bs, reply := .ok }

theorem readByte_stored (a : Nat) (bs : List Byte) (c : Nat) :
    (stored s a bs).readByte c =
      if h : a ≤ c ∧ c < a + bs.length then bs[c - a]'(by omega) else s.readByte c :=
  Memory.get_putList _ _ _ _ _

theorem onlyBytes_stored (a : Nat) (bs : List Byte) : OnlyBytes s (stored s a bs) a bs.length :=
  ⟨rfl, fun c hc => by rw [readByte_stored, dif_neg (by omega)]⟩

theorem readByte_stored_add (a : Nat) (bs : List Byte) (r : Nat) (h : r < bs.length) :
    (stored s a bs).readByte (a + r) = bs[r] := by
  rw [readByte_stored, dif_pos ⟨by omega, by omega⟩]
  simp only [Nat.add_sub_cancel_left]

/-- A store lets the next fetch read what it stored where that is part of the next word (20_memory.md R60). -/
theorem fetch_stored (bs : List Byte) (hpc : s.pc.toNat + 1 ≤ 4095) :
    fetch (stored s (s.indexAddr 0) bs) = .ok (wordOfBytes
      (byteAfterStore s bs s.pc.toNat) (byteAfterStore s bs (s.pc.toNat + 1))) := by
  have hread (c : Nat) : (stored s (s.indexAddr 0) bs).readByte c = byteAfterStore s bs c :=
    readByte_stored s _ bs c
  rw [fetch_ok (stored s _ bs) hpc, wordAtPc, hread, hread]
  rfl

theorem exec_ldB_ok (x : Reg) (h : s.indexAddr 0 + 2 ≤ 4095) :
    exec (.ldB x) s = .next (stored s (s.indexAddr 0) (bcdDigits (s.readV x))) :=
  execLdB_ok s x fun r hr => by omega

theorem exec_ldMemV_ok (x : Reg) (h : s.indexAddr 0 + x.val ≤ 4095) :
    exec (.ldMemV x) s = .next (stored s (s.indexAddr 0) (regsUpTo s x)) :=
  execLdMemV_ok s x fun r hr => by omega

theorem exec_ldVMem_ok (x : Reg) (h : s.indexAddr 0 + x.val ≤ 4095) :
    exec (.ldVMem x) s = .next { s with
      v := loadRegs s.v 0 (bytesFrom s (s.indexAddr 0) (x.val + 1)), reply := .ok } :=
  execLdVMem_ok s x fun r hr => by omega

/-- The registers after a load of a block: those up to x hold its bytes. -/
theorem readV_loadRegs (x q : Reg) (a : Nat) :
    State.readV { s with v := loadRegs s.v 0 (bytesFrom s a (x.val + 1)), reply := .ok } q =
      if q ≤ x then s.readByte (a + q.val) else s.readV q := by
  refine (loadRegs_getElem s.v 0 _ q.val q.isLt).trans ?_
  by_cases h : q ≤ x
  · have hq : q.val < x.val + 1 := Nat.lt_succ_of_le h
    simp [h, hq]
  · have hq : ¬ q.val < x.val + 1 := fun hlt => h (Nat.le_of_lt_succ hlt)
    simp [h, hq, State.readV]

end

/-! ### The digits -/

theorem byte_ofNat_toNat {n : Nat} (h : n < 256) : (BitVec.ofNat 8 n).toNat = n :=
  BitVec.toNat_ofNat n 8 ▸ Nat.mod_eq_of_lt h

/-! ### The statements -/

/-- Settles O33: both are one write of I. -/
theorem indexLoads : Obligations.IndexLoads := by
  refine ⟨rowDecodes_ldI, rowDecodes_ldF, fun s nnn => ?_, fun s x => ?_⟩
  · obtain ⟨t, hrun, hframe, hi⟩ := complete_setI s (zext16 nnn)
    exact ⟨t, (exec_ldI s nnn).trans hrun, hframe, by rw [hi, zext16_toNat]⟩
  · obtain ⟨t, hrun, hframe, hi⟩ := complete_setI s (glyphAddr (s.readV x))
    exact ⟨t, (exec_ldF s x).trans hrun, hframe, by rw [hi, glyphAddr_toNat]⟩

/-- Settles O34: ADD_I is the write of a 16-bit sum. -/
theorem addToIndexWraps : Obligations.AddToIndexWraps := by
  refine ⟨rowDecodes_addI, fun s x => ?_⟩
  obtain ⟨t, hrun, hframe, hi⟩ := complete_setI s (indexSum s.i (s.readV x))
  exact ⟨t, (exec_addI s x).trans hrun, hframe, by rw [hi, indexSum, BitVec.toNat_ofNat]⟩

/-- Settles O38: the two outcomes of a single access. -/
theorem byteWrittenIsReadBack : Obligations.ByteWrittenIsReadBack := by
  refine fun s a c b => ⟨fun ha hc => ⟨s.writeByte a b, memWrite_ok s ha b, rfl, ?_⟩, fun ha => ?_⟩
  · rw [memRead_ok _ hc, State.readByte_writeByte]
  · exact ⟨memWrite_error s ha b, memRead_error s ha⟩

/-- Settles O35: the three digits are a block of three bytes. -/
theorem storeDigitsWritesThreeBytes : Obligations.StoreDigitsWritesThreeBytes := by
  refine ⟨rowDecodes_ldB, fun s x a ha => ⟨fun h => ?_, fun h => ?_⟩⟩ <;> subst ha
  · have hv := (s.readV x).isLt
    have hread := readByte_stored_add s (s.indexAddr 0) (bcdDigits (s.readV x))
    refine ⟨_, exec_ldB_ok s x h, onlyBytes_stored s _ _, ?_, ?_, ?_⟩
    · exact (congrArg BitVec.toNat (hread 0 (by simp))).trans (byte_ofNat_toNat (by omega))
    · exact (congrArg BitVec.toNat (hread 1 (by simp))).trans (byte_ofNat_toNat (by omega))
    · exact (congrArg BitVec.toNat (hread 2 (by simp))).trans (byte_ofNat_toNat (by omega))
  · exact takesFatal_firstOutside s h (execLdB_error s x)

/-- Settles O36: the registers up to x are a block of x + 1 bytes. -/
theorem storeRegistersWritesBlock : Obligations.StoreRegistersWritesBlock := by
  refine ⟨rowDecodes_ldMemV, fun s x a ha => ⟨fun h => ?_, fun h => ?_⟩⟩ <;> subst ha
  · refine ⟨_, exec_ldMemV_ok s x h, regsUpTo_length s x ▸ onlyBytes_stored s _ _, fun r hr => ?_⟩
    have hlen : r.val < (regsUpTo s x).length := by rw [regsUpTo_length]; exact Nat.lt_succ_of_le hr
    rw [readByte_stored_add s _ _ r.val hlen, regsUpTo_getElem]
  · exact takesFatal_firstOutside s h (execLdMemV_error s x)

/-- Settles O37: the load of a block of x + 1 bytes, from V0 on. -/
theorem loadRegistersReadsBlock : Obligations.LoadRegistersReadsBlock := by
  refine ⟨rowDecodes_ldVMem, fun s x a ha => ⟨fun h => ?_, fun h => ?_⟩⟩ <;> subst ha
  · refine ⟨_, exec_ldVMem_ok s x h, ⟨rfl, fun r hr => ?_, State.readByte_congr rfl rfl⟩, fun r hr => ?_⟩
    · rw [readV_loadRegs, if_neg (by simpa using hr)]
    · rw [readV_loadRegs, if_pos hr]
  · exact takesFatal_firstOutside s h (execLdVMem_error s x)

/-- Settles O39: both stores leave a `stored` state, whose next fetch is known. -/
theorem storedBytesAreFetchedNext : Obligations.StoredBytesAreFetchedNext :=
  fun s x hpc => ⟨fun h => ⟨_, exec_ldMemV_ok s x h, rfl, fetch_stored s _ hpc⟩,
    fun h => ⟨_, exec_ldB_ok s x h, rfl, fetch_stored s _ hpc⟩⟩

end Sys2Proof.Machine

/-! # Proofs: drawing (spec/41_display.md R121)

A sprite's rows toggle the cells its set bits cover; a row's worth of facts about lists of cells stands in
`drawCells_spec` and `mem_spriteCells`. Here they are said of the sprite as a whole, in the terms of `Covers`. -/

namespace Sys2Proof.Machine

open Sys2Proof.Safety

/-- The display and the collision flag after a sprite is drawn at (cx, cy). -/
def drawSprite (cx cy : Nat) (rows : List Byte) (d : Display) : Display × Bool :=
  drawCells (spriteCells cx cy 0 rows) d false

theorem spriteCell_eq_iff {cx cy r c : Nat} {px : Fin 64} {py : Fin 32} :
    spriteCell cx cy r c = (px, py) ↔ (cx + c) % 64 = px.val ∧ (cy + r) % 32 = py.val := by
  rw [Prod.ext_iff, Fin.ext_iff, Fin.ext_iff]; rfl

theorem mem_spriteCells_iff_covers {cx cy : Nat} {rows : List Byte} {px : Fin 64} {py : Fin 32} :
    (px, py) ∈ spriteCells cx cy 0 rows ↔ Covers cx cy rows px py := by
  simp only [mem_spriteCells, Nat.zero_add, spriteCell_eq_iff]; rfl

section
variable {cx cy : Nat} {rows : List Byte} (hrows : rows.length ≤ 32) (d : Display)
include hrows

theorem pixel_drawSprite_of_covers {px : Fin 64} {py : Fin 32} (h : Covers cx cy rows px py) :
    Display.pixel (drawSprite cx cy rows d).1 px py = !(Display.pixel d px py) := by
  have hspec := (drawCells_spec _ (spriteCells_nodup cx cy 0 rows hrows) d false).1 px py
  rwa [if_pos (mem_spriteCells_iff_covers.mpr h)] at hspec

theorem pixel_drawSprite_of_not_covers {px : Fin 64} {py : Fin 32} (h : ¬ Covers cx cy rows px py) :
    Display.pixel (drawSprite cx cy rows d).1 px py = Display.pixel d px py := by
  have hspec := (drawCells_spec _ (spriteCells_nodup cx cy 0 rows hrows) d false).1 px py
  rwa [if_neg fun hm => h (mem_spriteCells_iff_covers.mp hm)] at hspec

/-- The flag is the collision: a covered cell was lit. -/
theorem drawSprite_flag :
    (drawSprite cx cy rows d).2 = true ↔ ∃ px py, Covers cx cy rows px py ∧ Display.pixel d px py = true := by
  rw [drawSprite, (drawCells_spec _ (spriteCells_nodup cx cy 0 rows hrows) d false).2, Bool.false_or,
    List.any_eq_true, Prod.exists]
  simp only [mem_spriteCells_iff_covers]

/-- A second draw toggles the same cells back. -/
theorem drawSprite_drawSprite : (drawSprite cx cy rows (drawSprite cx cy rows d).1).1 = d := by
  refine Display.ext_pixel fun px py => ?_
  by_cases h : Covers cx cy rows px py
  · rw [pixel_drawSprite_of_covers hrows _ h, pixel_drawSprite_of_covers hrows d h, Bool.not_not]
  · rw [pixel_drawSprite_of_not_covers hrows _ h, pixel_drawSprite_of_not_covers hrows d h]

/-- A second draw collides where the first lit a pixel. -/
theorem drawSprite_flag_again :
    (drawSprite cx cy rows (drawSprite cx cy rows d).1).2 = true ↔
      ∃ px py, Display.pixel d px py = false ∧ Display.pixel (drawSprite cx cy rows d).1 px py = true := by
  rw [drawSprite_flag hrows]
  refine exists_congr fun px => exists_congr fun py => and_congr_left fun hlit => ?_
  constructor
  · intro h
    rw [pixel_drawSprite_of_covers hrows d h] at hlit
    simpa using hlit
  · intro hdark
    by_contra h
    rw [pixel_drawSprite_of_not_covers hrows d h, hdark] at hlit
    cases hlit

end

/-! ### The instruction -/

section
variable (s : State) (x y : Reg) (n : Nat)

/-- The rows of a sprite at I. -/
abbrev spriteRows (s : State) (n : Nat) : List Byte := (List.range n).map fun r => s.readByte (s.indexAddr r)

/-- A completed draw: the display, and the collision in VF. -/
def State.drew (s : State) (p : Display × Bool) : State :=
  { State.writeFlag { s with pix := p.1 } p.2 with reply := .ok }

theorem drew_frame (p : Display × Bool) : OnlyDisplayAndFlag s (s.drew p) :=
  ⟨rfl, fun _ hr => State.readV_writeFlag_ne _ p.2 hr, State.readByte_congr rfl rfl⟩

theorem drew_flag (p : Display × Bool) : (s.drew p).readV 15 = flagByte p.2 :=
  State.readV_writeFlag_same _ p.2

theorem exec_drw_ok (h : ∀ r < n, s.indexAddr r ≤ 4095) :
    exec (.drw x y n) s =
      .next (s.drew (drawSprite (s.readV x).toNat (s.readV y).toNat (spriteRows s n) s.pix)) :=
  execDrw_ok s x y n h

theorem flagByte_eq_one_iff (f : Bool) : flagByte f = 1 ↔ f = true := by
  cases f <;> decide

end

/-! ### The statements -/

/-- Settles O15: the draw of at most fifteen rows, none of which falls on another. -/
theorem drawTogglesCoveredCells : Obligations.DrawTogglesCoveredCells := by
  refine ⟨rowDecodes_drw, fun s x y n hn hin => ?_⟩
  have hrows : (spriteRows s n).length ≤ 32 := by simp; omega
  have hflag := drawSprite_flag (cx := (s.readV x).toNat) (cy := (s.readV y).toNat) hrows s.pix
  refine ⟨_, exec_drw_ok s x y n hin, drew_frame s _, fun _ _ => pixel_drawSprite_of_covers hrows s.pix,
    fun _ _ => pixel_drawSprite_of_not_covers hrows s.pix, fun hlit => ?_, fun hdark => ?_⟩
  · rw [drew_flag, hflag.mpr hlit]; rfl
  · have hfalse : ¬ (drawSprite (s.readV x).toNat (s.readV y).toNat (spriteRows s n) s.pix).2 = true := by
      rw [hflag]
      rintro ⟨px, py, hcov, hlit⟩
      exact Bool.false_ne_true ((hdark px py hcov).symm.trans hlit)
    rw [drew_flag, Bool.eq_false_of_not_eq_true hfalse]; rfl

/-- Settles O16: the read of the rows stops at the first address outside, before anything is drawn. -/
theorem drawOutOfBoundsDrawsNothing : Obligations.DrawOutOfBoundsDrawsNothing :=
  fun s x y n r hr hout hin => takesFatal_of_raise (execDrw_error s x y n r hr hout hin)

/-- Settles O17: the second draw reads the same rows and coordinates, so it toggles the same cells. -/
theorem drawTwiceRestoresDisplay : Obligations.DrawTwiceRestoresDisplay := by
  intro s t u x y n hn hin h hpix hi hmem hx hy
  rw [exec_drw_ok s x y n hin] at h
  cases h
  have haddr (r : Nat) : u.indexAddr r = s.indexAddr r := congrArg (fun w : Word => w.toNat + r) hi
  have hsame : spriteRows u n = spriteRows s n := by simp only [spriteRows, haddr, hmem _]
  have hrows : (spriteRows s n).length ≤ 32 := by simp; omega
  refine ⟨_, exec_drw_ok u x y n fun r hr => (haddr r).symm ▸ hin r hr, ?_, ?_⟩
  · rw [hsame, hx, hy, hpix]
    exact drawSprite_drawSprite hrows s.pix
  · rw [drew_flag, flagByte_eq_one_iff, hsame, hx, hy, hpix]
    exact drawSprite_flag_again hrows s.pix

end Sys2Proof.Machine

/-! # Proofs: what each instruction may write, raise and read (spec/10_state.md, spec/60_exceptions.md)

`Effect` says what a completed instruction leaves, shape by shape, and `Raises` which errors it can raise. Each
statement here is a question asked of these two: for a piece of state, which shapes write it. -/

namespace Sys2Proof.Machine

open Sys2Proof.Safety

/-! ### Errors -/

/-- Settles O13: a completed instruction replies OK, so the reply is the error raised. -/
theorem errorsComeFromNamedInstructions : Obligations.ErrorsComeFromNamedInstructions := by
  intro i s t e h hreply
  rcases exec_next s h with heff | ⟨e', rfl, hraise⟩
  · rw [heff.reply_ok] at hreply; cases hreply
  · cases hreply
    cases hraise with
    | overflow _ nnn hsp => exact .inl ⟨rfl, hsp, nnn, rfl⟩
    | underflow _ hsp => exact .inr (.inl ⟨rfl, hsp, rfl⟩)
    | data _ _ n r hr hout hin hi => exact .inr (.inr (.inl ⟨n, r, rfl, hr, hout, hin, hi⟩))
    | key _ _ x hkey hi => exact .inr (.inr (.inr ⟨_, x, rfl, hkey, rfl, hi⟩))

/-! ### General registers -/

/-- The instructions that write one register with a result and no flag, and Fx65. -/
def WritesRegister (i : Instr) (r : Reg) : Prop :=
  ((∃ kk, i = .ldImm r kk ∨ i = .addImm r kk ∨ i = .rnd r kk) ∨
    (∃ y, i = .orReg r y ∨ i = .andReg r y ∨ i = .xorReg r y) ∨ i = .ldVDt r ∨ i = .ldVK r) ∨
  ∃ x, r ≤ x ∧ i = .ldVMem x

/-- The instructions with result register r and a flag. -/
def WritesFlagged (i : Instr) (r : Reg) : Prop :=
  (∃ y, i = .addReg r y ∨ i = .sub r y ∨ i = .subn r y) ∨ i = .shr r ∨ i = .shl r

section
variable {i : Instr} {s t : State}

/-- A block of loads keeps the registers above its last. -/
theorem readV_loadRegs_above {bytes : List Byte} {q : Reg} (h : bytes.length ≤ q.val) :
    State.readV { s with v := loadRegs s.v 0 bytes, reply := .ok } q = s.readV q :=
  (loadRegs_getElem s.v 0 bytes q.val q.isLt).trans (dif_neg (by omega))

/-- A register changes as a destination, or as VF, the flag. -/
theorem Effect.writesRegister (h : Effect i s t) {r : Reg} (hne : t.readV r ≠ s.readV r) :
    WritesRegister i r ∨ WritesFlagged i r ∨
      (r = flagReg ∧ ((∃ x, WritesFlagged i x) ∨ ∃ x y n, i = .drw x y n)) := by
  cases h with
  | reg x b hi =>
    have hrx : r = x := by
      by_contra hrx
      exact hne (s.readV_writeV_ne b hrx)
    subst hrx
    exact .inl (.inl hi)
  | flagged x b f hi =>
    by_cases hrf : r = flagReg
    · exact .inr (.inr ⟨hrf, .inl ⟨x, hi⟩⟩)
    · have hrx : r = x := by
        by_contra hrx
        exact hne ((s.readV_writeResultThenFlag x r b f).trans (by rw [if_neg hrf, if_neg hrx]))
      subst hrx
      exact .inr (.inl hi)
  | regs x hi bytes hlen =>
    refine .inl (.inr ⟨x, ?_, hi⟩)
    by_contra hrx
    exact hne (readV_loadRegs_above (hlen ▸ Nat.succ_le_of_lt (not_le.mp hrx)))
  | draw hi d f =>
    have hrf : r = flagReg := by
      by_contra hrf
      exact hne (State.readV_writeFlag_ne { s with pix := d } f hrf)
    exact .inr (.inr ⟨hrf, .inr hi⟩)
  | _ => exact absurd rfl hne

/-- A fatal error writes no register, so a changed one is an effect's. -/
theorem exec_writesRegister (h : exec i s = .next t) {r : Reg} (hne : t.readV r ≠ s.readV r) :
    WritesRegister i r ∨ WritesFlagged i r ∨
      (r = flagReg ∧ ((∃ x, WritesFlagged i x) ∨ ∃ x y n, i = .drw x y n)) := by
  rcases exec_next s h with heff | ⟨e, rfl, -⟩
  · exact heff.writesRegister hne
  · exact absurd rfl hne

/-! ### The other pieces of state -/

theorem Effect.movesPc (h : Effect i s t) (hne : t.pc ≠ s.pc) : MovesPc i := by
  cases h with
  | pc target hi _ => exact hi
  | call nnn hi _ => exact .inr (.inl ⟨nnn, .inr (.inl hi)⟩)
  | ret hi _ => exact .inl hi
  | _ => exact absurd rfl hne

theorem Effect.writesIndex (h : Effect i s t) (hne : t.i ≠ s.i) :
    (∃ nnn, i = .ldI nnn) ∨ ∃ x, i = .addI x ∨ i = .ldF x := by
  cases h with
  | index w hi => exact hi
  | _ => exact absurd rfl hne

theorem Effect.writesStack (h : Effect i s t) (hne : t.stack ≠ s.stack) : ∃ nnn, i = .call nnn := by
  cases h with
  | call nnn hi _ => exact ⟨nnn, hi⟩
  | _ => exact absurd rfl hne

theorem Effect.writesSp (h : Effect i s t) (hne : t.sp ≠ s.sp) : i = .ret ∨ ∃ nnn, i = .call nnn := by
  cases h with
  | ret hi _ => exact .inl hi
  | call nnn hi _ => exact .inr ⟨nnn, hi⟩
  | _ => exact absurd rfl hne

theorem Effect.writesDelay (h : Effect i s t) (hne : t.dt ≠ s.dt) : ∃ x, i = .ldDtV x := by
  cases h with
  | delay x hi => exact ⟨x, hi⟩
  | _ => exact absurd rfl hne

theorem Effect.writesSound (h : Effect i s t) (hne : t.st ≠ s.st) : ∃ x, i = .ldStV x := by
  cases h with
  | sound x hi => exact ⟨x, hi⟩
  | _ => exact absurd rfl hne

theorem Effect.writesMemory (h : Effect i s t) (hne : t.mem ≠ s.mem) : ∃ x, i = .ldB x ∨ i = .ldMemV x := by
  cases h with
  | bytes bs hi _ => exact hi
  | _ => exact absurd rfl hne

/-- What no completed instruction writes. -/
theorem Effect.keeps (h : Effect i s t) :
    t.status = s.status ∧ t.keys = s.keys ∧ t.opcode = s.opcode ∧ t.config = s.config ∧ t.loaded = s.loaded ∧
      t.rnd = s.rnd ∧ t.draws = s.draws := by
  cases h <;> exact ⟨rfl, rfl, rfl, rfl, rfl, rfl, rfl⟩

end

/-! ### The statements on writes -/

/-- VF's own clause of `exec_writesRegister` falls away for V0 to VE. -/
theorem exec_writesRegister_ne_flag {i : Instr} {s t : State} (h : exec i s = .next t) {r : Reg}
    (hr : r ≠ flagReg) (hne : t.readV r ≠ s.readV r) : WritesRegister i r ∨ WritesFlagged i r := by
  rcases exec_writesRegister h hne with hw | hf | ⟨hrf, -⟩
  · exact .inl hw
  · exact .inr hf
  · exact absurd hrf hr

/-- Settles O49: a fatal error writes only PC, STATUS and the reply; for a completed instruction each clause is
the lemma on `Effect` of that piece of state. -/
theorem onlyNamedInstructionsWrite : Obligations.OnlyNamedInstructionsWrite := by
  intro i s t h
  refine ⟨fun r hr hne => ?_, ?_⟩
  · -- the same alternatives, in the order of the statement
    have hw := exec_writesRegister_ne_flag h hr hne
    simpa only [WritesRegister, WritesFlagged, or_assoc, or_comm, or_left_comm] using hw
  · rcases exec_next s h with heff | ⟨e, rfl, -⟩
    · obtain ⟨hstatus, hrest⟩ := heff.keeps
      refine ⟨fun hne => ?_, heff.writesDisplay, fun hne => absurd hstatus hne, heff.writesIndex, heff.writesStack,
        heff.writesSp, heff.writesDelay, heff.writesSound, heff.writesMemory, hrest⟩
      simpa only [MovesPc, or_assoc] using Or.inl (heff.movesPc hne)
    · exact ⟨fun _ => .inr (.inr (.inr (.inr (.inr ⟨e, rfl, rfl⟩)))), fun hne => absurd rfl hne,
        fun _ => ⟨e, rfl, rfl⟩, fun hne => absurd rfl hne, fun hne => absurd rfl hne, fun hne => absurd rfl hne,
        fun hne => absurd rfl hne, fun hne => absurd rfl hne, fun hne => absurd rfl hne,
        rfl, rfl, rfl, rfl, rfl, rfl⟩

/-- A flag-writing instruction, by its operands. -/
theorem WritesFlagged.names {i : Instr} {r : Reg} (h : WritesFlagged i r) :
    (∃ x y, i = .addReg x y ∨ i = .sub x y ∨ i = .subn x y) ∨ ∃ x, i = .shr x ∨ i = .shl x := by
  rcases h with ⟨y, hy⟩ | hshift
  · exact .inl ⟨r, y, hy⟩
  · exact .inr ⟨r, hshift⟩

/-- Settles O50: VF as a destination, or as the flag; Fx65 reaches VF only with x = F. -/
theorem onlyNamedInstructionsWriteFlag : Obligations.OnlyNamedInstructionsWriteFlag := by
  intro i s t h hne
  rcases exec_writesRegister h hne with
    ((hkk | hy | hdt | hk) | ⟨x, hx, rfl⟩) | hf | ⟨-, ⟨x, hf⟩ | hdrw⟩
  · exact .inr (.inr (.inr (.inl hkk)))
  · exact .inr (.inr (.inr (.inr (.inl hy))))
  · exact .inr (.inr (.inr (.inr (.inr (.inl hdt)))))
  · exact .inr (.inr (.inr (.inr (.inr (.inr (.inl hk))))))
  · have hx15 : x = 15 := Fin.last_le_iff.mp hx
    exact .inr (.inr (.inr (.inr (.inr (.inr (.inr (by rw [hx15])))))))
  · exact hf.names.imp_right .inl
  · exact hf.names.imp_right .inl
  · exact .inr (.inr (.inl hdrw))

/-! ### State that instructions do not read -/

/-- OPCODE, ST and the rnd latch, each changed by a function. -/
def State.mapUnread (o : Word → Word) (b r : Byte → Byte) (s : State) : State :=
  { s with opcode := o s.opcode, st := b s.st, rnd := r s.rnd }

section
variable (o : Word → Word) (b r : Byte → Byte) (s : State)

theorem mapUnread_skipIf (c : Bool) :
    (s.mapUnread o b r).skipIf c = (s.skipIf c).mapUnread o b r := by
  cases c <;> rfl

theorem complete_mapUnread_skipIf (c : Bool) :
    complete ((s.mapUnread o b r).skipIf c) = mapNext (State.mapUnread o b r) (complete (s.skipIf c)) :=
  congrArg complete (mapUnread_skipIf o b r s c)

theorem skipOnKey_mapUnread (x : Reg) (level : Bool) :
    skipOnKey x level (s.mapUnread o b r) = mapNext (State.mapUnread o b r) (skipOnKey x level s) := by
  by_cases h : (s.readV x).toNat < 16
  · rw [skipOnKey_ok s x level h, skipOnKey_ok (s.mapUnread o b r) x level h]
    exact complete_mapUnread_skipIf o b r s _
  · rw [skipOnKey_error s x level h, skipOnKey_error (s.mapUnread o b r) x level h]; rfl

/-- Changing the unread fields before an instruction or after it is the same, but for Fx18, which writes ST, and
Cxkk, which reads rnd. An instruction with several outcomes takes the same one, for the test reads none of them. -/
theorem exec_mapUnread (i : Instr) (hst : ∀ x, i = .ldStV x → b = id) (hrnd : ∀ x kk, i = .rnd x kk → r = id) :
    exec i (s.mapUnread o b r) = mapNext (State.mapUnread o b r) (exec i s) := by
  cases i with
  | ldStV x => rw [hst x rfl]; rfl
  | rnd x kk => rw [hrnd x kk rfl]; rfl
  | seImm x kk | sneImm x kk | seReg x y | sneReg x y => exact complete_mapUnread_skipIf o b r s _
  | skp x => exact skipOnKey_mapUnread o b r s x true
  | sknp x => exact skipOnKey_mapUnread o b r s x false
  | ret =>
    by_cases h : 0 < s.sp.val
    · rw [exec, exec, execRet_ok s h, execRet_ok (s.mapUnread o b r) h]; rfl
    · rw [exec, exec, execRet_empty s h, execRet_empty (s.mapUnread o b r) h]; rfl
  | call nnn =>
    by_cases h : s.sp.val < 16
    · rw [exec, exec, execCall_ok s nnn h, execCall_ok (s.mapUnread o b r) nnn h]; rfl
    · rw [exec, exec, execCall_full s nnn h, execCall_full (s.mapUnread o b r) nnn h]; rfl
  | ldVK x =>
    have hkeys : (s.mapUnread o b r).keys = s.keys := rfl
    cases h : lowestPressed s.keys <;> simp only [exec, execLdVK, hkeys, h] <;> rfl
  | drw x y n =>
    rcases block_inside_or_first_outside (s.indexAddr 0) n with h | ⟨q, hq, hout, hin⟩
    · rw [exec, exec, execDrw_ok s x y n h, execDrw_ok (s.mapUnread o b r) x y n h]; rfl
    · rw [exec, exec, execDrw_error s x y n q hq hout hin,
        execDrw_error (s.mapUnread o b r) x y n q hq hout hin]; rfl
  | ldB x =>
    rcases block_inside_or_first_outside (s.indexAddr 0) 3 with h | ⟨q, hq, hout, hin⟩
    · rw [exec, exec, execLdB_ok s x h, execLdB_ok (s.mapUnread o b r) x h]; rfl
    · rw [exec, exec, execLdB_error s x q hq hout hin, execLdB_error (s.mapUnread o b r) x q hq hout hin]; rfl
  | ldMemV x =>
    rcases block_inside_or_first_outside (s.indexAddr 0) (x.val + 1) with h | ⟨q, hq, hout, hin⟩
    · rw [exec, exec, execLdMemV_ok s x h, execLdMemV_ok (s.mapUnread o b r) x h]; rfl
    · rw [exec, exec, execLdMemV_error s x q hq hout hin,
        execLdMemV_error (s.mapUnread o b r) x q hq hout hin]; rfl
  | ldVMem x =>
    rcases block_inside_or_first_outside (s.indexAddr 0) (x.val + 1) with h | ⟨q, hq, hout, hin⟩
    · rw [exec, exec, execLdVMem_ok s x h, execLdVMem_ok (s.mapUnread o b r) x h]; rfl
    · rw [exec, exec, execLdVMem_error s x q hq hout hin,
        execLdVMem_error (s.mapUnread o b r) x q hq hout hin]; rfl
  | _ => rfl

end

/-- Settles O51: one field changed, the other two left by the identity. -/
theorem unreadStateDoesNotInfluence : Obligations.UnreadStateDoesNotInfluence :=
  fun i s => ⟨fun w => exec_mapUnread (fun _ => w) id id s i (fun _ _ => rfl) (fun _ _ _ => rfl),
    fun b h => exec_mapUnread id (fun _ => b) id s i (fun x hx => absurd hx (h x)) (fun _ _ _ => rfl),
    fun b h => exec_mapUnread id id (fun _ => b) s i (fun _ _ => rfl) (fun x kk hx => absurd hx (h x kk))⟩

end Sys2Proof.Machine
